-- ==== Sys2Proof/Word.lean ====
section
/-! DEFINITION. The bit-vector types of the MDPU core at a width `xlen`, the parameter `XLEN` of R8:
the word, the instruction pointer and the instruction word. -/

namespace Sys2Proof

/-- One signed integer of `XLEN` bits in two's complement: a register, a memory cell, `sp` and `icount`
(R20, R37, R30, R31; decision D1, log entry 9). -/
abbrev Word (xlen : Nat) := BitVec xlen

/-- The instruction pointer, a signed integer of `XLEN + 1` bits (R27, decision D13, log entry 17). -/
abbrev Pc (xlen : Nat) := BitVec (xlen + 1)

/-- One instruction word of `6 * XLEN` bits (R73). -/
abbrev InstrWord (xlen : Nat) := BitVec (6 * xlen)

end Sys2Proof
end

