-- ==== Sys2Proof/Config.lean ====
section
/-! DEFINITION. What one run of the machine is given from outside: the parameters of R8 with their
ranges (D22), the program, and the inputs `State.reset` is made with. -/

namespace Sys2Proof

/-- What an opcode value outside 0 to 23 does (R8, R79). The spec's default is `fault`. -/
inductive UnknownOpcodePolicy where
  | fault
  | nop
deriving DecidableEq, Repr

namespace Config

/-- The default of the parameter `XLEN` (R8, decisions D1 and D2). -/
def xlen : Nat := 32

/-- 2^(XLEN-1) - 1, the upper end of every run parameter's range (R8, D22). -/
def maxParameter (xlen : Nat) : Nat := 2 ^ (xlen - 1) - 1

end Config

/-- The inputs latched at reset (R32, R240): the parameters of R8 and the program words.
`PROGRAM_SIZE` is the length of `program` (R14). `XLEN` is the parameter whose default is 32, and
`UNKNOWN_OPCODE_POLICY` the one whose default is `fault` (log entry 29). -/
structure Launch where
  xlen                : Nat := Config.xlen
  numRegisters        : Nat
  memorySize          : Nat
  maxInstructionCount : Nat
  unknownOpcodePolicy : UnknownOpcodePolicy := .fault
  program             : List (InstrWord xlen)
deriving DecidableEq, Repr

/-- The inputs of `State.reset`: the spec's default width and policy, the sizes and the ceiling of the
source's one scenario (S8: 3 registers, 4 cells, ceiling 1000), and no program. The spec gives these
sizes and this ceiling no default (R8, R9). DESIGN CHOICE, log entry 3: unsafe. -/
def Config.resetLaunch : Launch where
  numRegisters        := 3
  memorySize          := 4
  maxInstructionCount := 1000
  program             := []

end Sys2Proof
end

