-- ==== Sys2Proof/Syntax.lean ====
section
/-! DEFINITION. The 24 instructions (R78), one constructor per row of spec/opcode_table.json, each
with the fields its class uses (R77) and no other: an unused field is ignored (R71). -/

namespace Sys2Proof

/-- An instruction. Every operand is a whole field read as a signed integer (R72, R75), so a register
number or an address may be negative or too large; the checks at execution decide (R80). -/
inductive Instr where
  -- class RRR: two source registers, one destination register
  | add (reg1 reg2 reg3 : Int)
  | sub (reg1 reg2 reg3 : Int)
  | mul (reg1 reg2 reg3 : Int)
  | div (reg1 reg2 reg3 : Int)
  -- class RA: a register and a cell address
  | store (reg1 addr : Int)
  | load (reg1 addr : Int)
  -- class RI: a register and an immediate
  | loadImmediate (reg1 immediate : Int)
  -- class R: one register
  | push (reg1 : Int)
  | pop (reg1 : Int)
  -- MOV is class RR and writes `reg1`
  | mov (reg1 reg2 : Int)
  | and (reg1 reg2 reg3 : Int)
  | or (reg1 reg2 reg3 : Int)
  | xor (reg1 reg2 reg3 : Int)
  | shl (reg1 reg2 reg3 : Int)
  | shr (reg1 reg2 reg3 : Int)
  -- NOT is class RR and writes `reg2`
  | not (reg1 reg2 : Int)
  | cmp (reg1 reg2 : Int)
  | test (reg1 reg2 : Int)
  -- `addr` is a program index here
  | jmp (addr : Int)
  | jz (reg1 addr : Int)
  | jnz (reg1 addr : Int)
  | je (reg1 reg2 addr : Int)
  | jne (reg1 reg2 addr : Int)
  | halt
deriving DecidableEq, Repr

end Sys2Proof
end

