-- ==== Sys2Proof/WellFormed.lean ====
section
/-! DEFINITION. Which instructions the encoding can hold: every operand fits its signed field of `XLEN`
bits (R72). Nothing else is asked: no combination of operand fields is illegal as an encoding (R80). -/

namespace Sys2Proof

/-- The values a signed field of `xlen` bits holds, -2^(XLEN-1) to 2^(XLEN-1) - 1 (R10, R72). -/
def inField (xlen : Nat) (z : Int) : Bool := decide (1 ≤ xlen ∧ -2 ^ (xlen - 1) ≤ z ∧ z ≤ 2 ^ (xlen - 1) - 1)

/-- Every operand fits its field. -/
def Instr.wf (xlen : Nat) : Instr → Bool
  | .add a b c | .sub a b c | .mul a b c | .div a b c => inField xlen a && inField xlen b && inField xlen c
  | .and a b c | .or a b c | .xor a b c | .shl a b c | .shr a b c =>
    inField xlen a && inField xlen b && inField xlen c
  | .store r a | .load r a | .jz r a | .jnz r a => inField xlen r && inField xlen a
  | .loadImmediate r v => inField xlen r && inField xlen v
  | .push r | .pop r => inField xlen r
  | .mov a b | .not a b | .cmp a b | .test a b => inField xlen a && inField xlen b
  | .jmp a => inField xlen a
  | .je a b t | .jne a b t => inField xlen a && inField xlen b && inField xlen t
  | .halt => true

/-- `i` is an instruction whose operands an instruction word of `6 * xlen` bits can hold. -/
abbrev WellFormed (xlen : Nat) (i : Instr) : Prop := i.wf xlen = true

end Sys2Proof
end

