-- ==== Sys2Proof/Decode.lean ====
section
/-! DEFINITION. The instruction word (R73), the decoder (R76 to R79) and the encoder. The decoder is
total: every word of `6 * XLEN` bits (192 at the default width) decodes to one of the 24 instructions or
to "unknown opcode". -/

namespace Sys2Proof

/-- The six fields of an instruction in the source's literal order
`(opcode, reg1, reg2, reg3, addr, immediate)`, each a signed integer (R70, R72). -/
structure Fields where
  opcode    : Int
  reg1      : Int
  reg2      : Int
  reg3      : Int
  addr      : Int
  immediate : Int
deriving DecidableEq, Repr

/-- What a word decodes to (R76). -/
inductive Decoded where
  | instr (i : Instr)
  /-- the opcode field's signed value is not in 0 to 23 (R79) -/
  | unknownOpcode (opcode : Int)
deriving DecidableEq, Repr

/-- Field `k` of a word, counted from the right: its bits `(k+1)*XLEN-1 : k*XLEN` (R73), read as a
signed integer (R75). -/
def fieldAt {xlen : Nat} (w : InstrWord xlen) (k : Nat) : Int := (w.extractLsb' (k * xlen) xlen).toInt

/-- Split a word into its fields in the order of R73, `opcode` in the most significant position; at
`XLEN` = 32 these are bits 191:160, 159:128, 127:96, 95:64, 63:32 and 31:0. -/
def splitWord {xlen : Nat} (w : InstrWord xlen) : Fields where
  opcode    := fieldAt w 5
  reg1      := fieldAt w 4
  reg2      := fieldAt w 3
  reg3      := fieldAt w 2
  addr      := fieldAt w 1
  immediate := fieldAt w 0

/-- Select the instruction by opcode (R78) with the fields its class uses (R77); the rest is
ignored (R71). -/
def decodeFields (f : Fields) : Decoded :=
  match f.opcode with
  | 0  => .instr (.add f.reg1 f.reg2 f.reg3)
  | 1  => .instr (.sub f.reg1 f.reg2 f.reg3)
  | 2  => .instr (.mul f.reg1 f.reg2 f.reg3)
  | 3  => .instr (.div f.reg1 f.reg2 f.reg3)
  | 4  => .instr (.store f.reg1 f.addr)
  | 5  => .instr (.load f.reg1 f.addr)
  | 6  => .instr (.loadImmediate f.reg1 f.immediate)
  | 7  => .instr (.push f.reg1)
  | 8  => .instr (.pop f.reg1)
  | 9  => .instr (.mov f.reg1 f.reg2)
  | 10 => .instr (.and f.reg1 f.reg2 f.reg3)
  | 11 => .instr (.or f.reg1 f.reg2 f.reg3)
  | 12 => .instr (.xor f.reg1 f.reg2 f.reg3)
  | 13 => .instr (.shl f.reg1 f.reg2 f.reg3)
  | 14 => .instr (.shr f.reg1 f.reg2 f.reg3)
  | 15 => .instr (.not f.reg1 f.reg2)
  | 16 => .instr (.cmp f.reg1 f.reg2)
  | 17 => .instr (.test f.reg1 f.reg2)
  | 18 => .instr (.jmp f.addr)
  | 19 => .instr (.jz f.reg1 f.addr)
  | 20 => .instr (.jnz f.reg1 f.addr)
  | 21 => .instr (.je f.reg1 f.reg2 f.addr)
  | 22 => .instr (.jne f.reg1 f.reg2 f.addr)
  | 23 => .instr .halt
  | op => .unknownOpcode op

/-- Decode one instruction word (R76). It reads no machine state. -/
def decode {xlen : Nat} (w : InstrWord xlen) : Decoded := decodeFields (splitWord w)

/-- The decoder on a row of spec/opcode_table.json, whose words are numbered with bit 0 the least
significant: the one word of 192 bits at the default width, every bit above `nbits` zero. -/
def decodeTableWord (nbits w : Nat) : Option Instr :=
  match decode (xlen := Config.xlen) (BitVec.ofNat _ (w % 2 ^ nbits)) with
  | .instr i => some i
  | .unknownOpcode _ => none

/-- The opcode numbers of R78. -/
def Instr.opcode : Instr → Int
  | .add .. => 0
  | .sub .. => 1
  | .mul .. => 2
  | .div .. => 3
  | .store .. => 4
  | .load .. => 5
  | .loadImmediate .. => 6
  | .push .. => 7
  | .pop .. => 8
  | .mov .. => 9
  | .and .. => 10
  | .or .. => 11
  | .xor .. => 12
  | .shl .. => 13
  | .shr .. => 14
  | .not .. => 15
  | .cmp .. => 16
  | .test .. => 17
  | .jmp .. => 18
  | .jz .. => 19
  | .jnz .. => 20
  | .je .. => 21
  | .jne .. => 22
  | .halt => 23

/-- The six-tuple of an instruction; unused fields are assembled as 0 (R82). -/
def fieldsOf (i : Instr) : Fields :=
  match i with
  | .add a b c | .sub a b c | .mul a b c | .div a b c => ⟨i.opcode, a, b, c, 0, 0⟩
  | .and a b c | .or a b c | .xor a b c | .shl a b c | .shr a b c => ⟨i.opcode, a, b, c, 0, 0⟩
  | .store r a | .load r a | .jz r a | .jnz r a => ⟨i.opcode, r, 0, 0, a, 0⟩
  | .loadImmediate r v => ⟨i.opcode, r, 0, 0, 0, v⟩
  | .push r | .pop r => ⟨i.opcode, r, 0, 0, 0, 0⟩
  | .mov a b | .not a b | .cmp a b | .test a b => ⟨i.opcode, a, b, 0, 0, 0⟩
  | .jmp a => ⟨i.opcode, 0, 0, 0, a, 0⟩
  | .je a b t | .jne a b t => ⟨i.opcode, a, b, 0, t, 0⟩
  | .halt => ⟨i.opcode, 0, 0, 0, 0, 0⟩

/-- A word with the integer `z` in field `k`, in two's complement, and zeros elsewhere (R73). -/
def placeField (xlen k : Nat) (z : Int) : InstrWord xlen :=
  (BitVec.ofInt xlen z).setWidth (6 * xlen) <<< (k * xlen)

/-- Lay six fields side by side, `opcode` in the most significant position (R73). -/
def joinFields (xlen : Nat) (f : Fields) : InstrWord xlen :=
  placeField xlen 5 f.opcode ||| placeField xlen 4 f.reg1 ||| placeField xlen 3 f.reg2
    ||| placeField xlen 2 f.reg3 ||| placeField xlen 1 f.addr ||| placeField xlen 0 f.immediate

/-- The word of an instruction. -/
def encode (xlen : Nat) (i : Instr) : InstrWord xlen := joinFields xlen (fieldsOf i)

/-- The operand classes of R77. -/
inductive OperandClass where
  | rrr | rr | ra | ri | r | rra | a | n
deriving DecidableEq, Repr

/-- The class of each opcode (R77). -/
def Instr.operandClass : Instr → OperandClass
  | .add .. | .sub .. | .mul .. | .div .. | .and .. | .or .. | .xor .. | .shl .. | .shr .. => .rrr
  | .mov .. | .not .. | .cmp .. | .test .. => .rr
  | .store .. | .load .. | .jz .. | .jnz .. => .ra
  | .loadImmediate .. => .ri
  | .push .. | .pop .. => .r
  | .je .. | .jne .. => .rra
  | .jmp .. => .a
  | .halt => .n

/-- The fields a class uses, the opcode's among them, as places in the word counted from the right
(R73, R77). -/
def usedFields : OperandClass → List Nat
  | .rrr => [5, 4, 3, 2]
  | .rr  => [5, 4, 3]
  | .ra  => [5, 4, 1]
  | .ri  => [5, 4, 0]
  | .r   => [5, 4]
  | .rra => [5, 4, 3, 1]
  | .a   => [5, 1]
  | .n   => [5]

/-- The bits of field `k` of a word. -/
def fieldMask (xlen k : Nat) : InstrWord xlen := placeField xlen k (-1)

/-- The bits of the word a class uses; the others are ignored (R71). -/
def usedBits (xlen : Nat) (c : OperandClass) : InstrWord xlen :=
  (usedFields c).foldr (fun k m => fieldMask xlen k ||| m) 0

end Sys2Proof
end

