-- ==== Sys2Proof/Machine/Alu.lean ====
section
/-! DEFINITION. The results the ALU computes: the exact integer, then the narrowing to `XLEN`
bits where the spec gives one. The rules write 32 for `XLEN`, whose default it is. -/

namespace Sys2Proof.Machine

variable {xlen : Nat}

/-- `wrap_XLEN(z)`: the word congruent to `z` modulo 2^XLEN (R10). -/
def wrap (z : Int) : Word xlen := BitVec.ofInt xlen z

/-- R100. -/
def addResult (a b : Word xlen) : Word xlen := wrap (a.toInt + b.toInt)

/-- R101: `reg1` minus `reg2`. -/
def subResult (a b : Word xlen) : Word xlen := wrap (a.toInt - b.toInt)

/-- R102. -/
def mulResult (a b : Word xlen) : Word xlen := wrap (a.toInt * b.toInt)

/-- R103: the exact quotient truncated toward zero; the least word by -1 wraps (R106, decision D8). -/
def divResult (a b : Word xlen) : Word xlen := wrap (Int.tdiv a.toInt b.toInt)

/-- R131, bit by bit (R137). -/
def andResult (a b : Word xlen) : Word xlen := a &&& b

/-- R132. -/
def orResult (a b : Word xlen) : Word xlen := a ||| b

/-- R133. -/
def xorResult (a b : Word xlen) : Word xlen := a ^^^ b

/-- R136. -/
def notResult (a : Word xlen) : Word xlen := ~~~a

/-- The shift count: the value modulo `XLEN`; at the default width that is modulo 32, the low five bits of
its pattern (R138, decision D9, log entries 11 and 30). -/
def shiftCount (b : Word xlen) : Nat := (b.toInt % xlen).toNat

/-- R134: `wrap_XLEN(a * 2^s)`. -/
def shlResult (a b : Word xlen) : Word xlen := wrap (a.toInt * ((2 ^ shiftCount b : Nat) : Int))

/-- R135: `floor(a / 2^s)`, the arithmetic shift (R138, decision D9). -/
def shrResult (a b : Word xlen) : Word xlen := wrap (Int.fdiv a.toInt ((2 ^ shiftCount b : Nat) : Int))

end Sys2Proof.Machine
end

