-- ==== Sys2Proof/Machine/State.lean ====
section
/-! DEFINITION. The state of the machine as plain data: the width `XLEN` and, at that width, the tuple of
spec/10_state.md `(x, Mem, sp, pc, icount, status, err, snapshot)` with the run inputs latched at reset
(log entries 1 and 29). -/

namespace Sys2Proof.Machine

/-- Data memory: (address, cell) pairs in one canonical form, `Memory.wf`. A cell is one integer and
not bytes (R51, R56; log entry 5). -/
abbrev Memory (xlen : Nat) := List (Nat × Word xlen)

/-- What an address that is not listed reads as: every cell is zero after reset (R44). -/
def Memory.unlisted {xlen : Nat} : Word xlen := 0#xlen

/-- The canonical form: addresses strictly rising, and no entry equal to what an unlisted address
reads as. -/
abbrev Memory.wf {xlen : Nat} (m : Memory xlen) : Prop :=
  m.Pairwise (fun c d => c.1 < d.1) ∧ ∀ c ∈ m, c.2 ≠ Memory.unlisted

/-- `status` (R33). -/
inductive Status where
  | running
  | done
  | failed
deriving DecidableEq, Repr

/-- The error kinds of R200 with their information, the one signed integer the error carries. -/
inductive Error where
  /-- a used register field is out of range; carries the register number (R201) -/
  | registerOutOfBounds (r : Int)
  /-- STORE or LOAD with an address out of range; carries the address (R202) -/
  | memoryAddressOutOfBounds (a : Int)
  /-- DIV by a register that holds 0 (R203) -/
  | divisionByZero
  /-- PUSH with `sp < 0` (R204) -/
  | stackOverflow
  /-- POP with `sp >= MEMORY_SIZE - 1` (R205) -/
  | stackUnderflow
  /-- the engine's guard (R206) -/
  | instructionLimitExceeded
  /-- reserved: nothing in this block raises it (R208, log entry 21) -/
  | allocationFailure
  /-- an opcode outside 0 to 23 under the policy `fault`; carries the opcode value (R207) -/
  | unknownOpcode (opcode : Int)
  /-- a fetch with `pc < 0`; carries the value of `pc` (R209) -/
  | invalidJumpTarget (pc : Int)
deriving DecidableEq, Repr

/-- The snapshot register's content (R191). -/
structure Snapshot (xlen : Nat) where
  registers : List (Word xlen)
  stack     : List (Word xlen)
deriving DecidableEq, Repr

/-- The block at the width `xlen`: its registers and the run inputs it latched. `NUM_REGISTERS` is the
length of `regs` and `PROGRAM_SIZE` the length of `program` (R20, R14; log entry 2). -/
structure Block (xlen : Nat) where
  /-- `x[0]` to `x[NUM_REGISTERS-1]` (R20) -/
  regs : List (Word xlen)
  /-- `Mem[0]` to `Mem[MEMORY_SIZE-1]` (R37) -/
  memory : Memory xlen
  /-- the next free stack cell, signed (R30) -/
  sp : Word xlen
  /-- the index of the next instruction, signed (R27) -/
  pc : Pc xlen
  /-- the counted instructions completed so far, signed (R31, R178) -/
  icount : Word xlen
  status : Status
  /-- the error of a failed run (R33); `none` is "no error" -/
  err : Option Error
  /-- the snapshot register (R34); `none` is "not valid" -/
  snapshot : Option (Snapshot xlen)
  /-- run input `MEMORY_SIZE` (R32) -/
  memorySize : Nat
  /-- run input `MAX_INSTRUCTION_COUNT` (R32) -/
  maxInstructionCount : Nat
  /-- run input `UNKNOWN_OPCODE_POLICY` (R8) -/
  unknownOpcodePolicy : UnknownOpcodePolicy
  /-- run input: the program words (R52, R74) -/
  program : List (InstrWord xlen)
deriving DecidableEq, Repr

/-- The machine: the parameter `XLEN` of R8, a run input whose default is 32 (log entry 29), and the
block at that width. -/
structure State where
  xlen : Nat
  block : Block xlen
deriving DecidableEq, Repr

/-- Why the machine stops with a fault. The spec's own errors are not among them: raising one is a
next state (R212, log entry 19). -/
inductive Fault where
  /-- raised by `step` when `status` is DONE or FAILED: there is no step (R170). Safe, log entry 6. -/
  | notRunning
  /-- raised by PUSH and POP when `sp` names no cell of memory, which the invariant of R30 rules
  out. Safe, log entry 8. -/
  | noSuchCell (address : Int)
deriving DecidableEq, Repr

/-- Why the machine refuses. -/
inductive Refusal where
  /-- raised by an arm of `exec` whose instruction has no meaning yet. Safe. -/
  | notModelled (mnemonic : String)
  /-- raised by `step` and `launch` when the launch preconditions of R241 are broken (D22). Safe,
  log entry 7. -/
  | launchPrecondition
deriving DecidableEq, Repr

/-- The outcome of an instruction or a step. -/
abbrev Result := Host.Outcome State Fault Refusal

/-- The outcome of an operation on a block, which keeps the block's width. -/
abbrev BlockResult (xlen : Nat) := Host.Outcome (Block xlen) Fault Refusal

/-- The block after reset with the inputs the host supplies (R44, R240). -/
def Block.resetWith (l : Launch) : Block l.xlen where
  regs                := List.replicate l.numRegisters 0
  memory              := []
  sp                  := BitVec.ofInt l.xlen ((l.memorySize : Int) - 1)
  pc                  := 0
  icount              := 0
  status              := .running
  err                 := none
  snapshot            := none
  memorySize          := l.memorySize
  maxInstructionCount := l.maxInstructionCount
  unknownOpcodePolicy := l.unknownOpcodePolicy
  program             := l.program

/-- Reset with the inputs the host supplies (R44, R240). -/
def State.resetWith (l : Launch) : State where
  xlen  := l.xlen
  block := Block.resetWith l

/-- The machine right after reset (R44), for the launch of log entry 3: no program is loaded. -/
def State.reset : State := State.resetWith Config.resetLaunch

end Sys2Proof.Machine
end

