-- ==== Sys2Proof/Machine/Ops.lean ====
section
/-! DEFINITION. The named operations over memory, registers, the stack pointer and the instruction
pointer, the checks, raising an error, and the normal end of a run. -/

namespace Sys2Proof.Machine

variable {xlen : Nat}

/-! ## A block of the machine -/

/-- An outcome of a block of the machine, as an outcome of the machine. -/
def lift {xlen : Nat} : BlockResult xlen → Result
  | .next b => .next ⟨xlen, b⟩
  | .fault f => .fault f
  | .refused r => .refused r

/-- An operation on the machine's block, as an operation on the machine. -/
def State.via (s : State) (f : Block s.xlen → BlockResult s.xlen) : Result := lift (f s.block)

/-! ## Data memory -/

/-- The cell at an address (R54). -/
def Memory.read : Memory xlen → Nat → Word xlen
  | [], _ => Memory.unlisted
  | (b, w) :: m, a => if a = b then w else Memory.read m a

/-- The entry for one cell in front of the entries of higher addresses; none for a cell equal to
what an unlisted address reads as. -/
def Memory.entry (a : Nat) (v : Word xlen) (m : Memory xlen) : Memory xlen :=
  if v = Memory.unlisted then m else (a, v) :: m

/-- Write one cell and no other (R55), keeping the canonical form. -/
def Memory.write : Memory xlen → Nat → Word xlen → Memory xlen
  | [], a, v => Memory.entry a v []
  | (b, w) :: m, a, v =>
    if a < b then Memory.entry a v ((b, w) :: m)
    else if a = b then Memory.entry a v m
    else (b, w) :: Memory.write m a v

/-- `Mem[a]` (R54). -/
def Block.cell (s : Block xlen) (a : Nat) : Word xlen := Memory.read s.memory a

/-- `Mem[a] <- v` (R55). -/
def Block.setCell (s : Block xlen) (a : Nat) (v : Word xlen) : Block xlen :=
  { s with memory := Memory.write s.memory a v }

/-! ## Registers, stack pointer, instruction pointer -/

/-- `NUM_REGISTERS` (R20). -/
def Block.numRegisters (s : Block xlen) : Nat := s.regs.length

/-- `PROGRAM_SIZE` (R14). -/
def Block.programSize (s : Block xlen) : Nat := s.program.length

/-- `x[i]`, for `i < NUM_REGISTERS` (R11). -/
def Block.reg (s : Block xlen) (i : Nat) : Word xlen := s.regs.getD i 0

/-- `x[i] <- v` (R11). No register is hardwired (R21). -/
def Block.setReg (s : Block xlen) (i : Nat) (v : Word xlen) : Block xlen := { s with regs := s.regs.set i v }

/-- `sp <- v`. -/
def Block.setSp (s : Block xlen) (v : Word xlen) : Block xlen := { s with sp := v }

/-- `pc <- t` (R11). A jump's target is any field and fits the `XLEN + 1` bits of `pc` (R27). -/
def Block.setPc (s : Block xlen) (t : Int) : Block xlen := { s with pc := BitVec.ofInt (xlen + 1) t }

/-! ## Raising an error

This is the machine's exception entry (R212). There is no handler and no return from one (R216). -/

/-- The state after an error: `status <- FAILED`, `err <- E`, everything else as it was (R212, R213). -/
def Block.fail (s : Block xlen) (e : Error) : Block xlen := { s with status := .failed, err := some e }

/-- `raise E(info)` (R11, R212): abandon the instruction and end the run. -/
def raise (s : Block xlen) (e : Error) : BlockResult xlen := .next (s.fail e)

/-- The code of an error kind (R200, decision D16). -/
def errorCode : Error → Nat
  | .registerOutOfBounds _ => 1
  | .memoryAddressOutOfBounds _ => 2
  | .divisionByZero => 3
  | .stackOverflow => 4
  | .stackUnderflow => 5
  | .instructionLimitExceeded => 6
  | .allocationFailure => 7
  | .unknownOpcode _ => 8
  | .invalidJumpTarget _ => 9

/-- The information an error carries (R200). -/
def errorInfo : Error → Option Int
  | .registerOutOfBounds r => some r
  | .memoryAddressOutOfBounds a => some a
  | .divisionByZero => none
  | .stackOverflow => none
  | .stackUnderflow => none
  | .instructionLimitExceeded => none
  | .allocationFailure => none
  | .unknownOpcode op => some op
  | .invalidJumpTarget p => some p

/-! ## The checks

Each check hands the number on as a natural number when it passes, so that no write comes before the
last check (R12). -/

/-- The signed number `z` is an index below `n`. -/
def inRange (z : Int) (n : Nat) : Bool := decide (0 ≤ z ∧ z < n)

/-- `CheckReg(r)` (R23). -/
def checkReg (s : Block xlen) (r : Int) (k : Nat → BlockResult xlen) : BlockResult xlen :=
  if inRange r s.numRegisters then k r.toNat else raise s (.registerOutOfBounds r)

/-- `CheckAddr(a)` (R53). -/
def checkAddr (s : Block xlen) (a : Int) (k : Nat → BlockResult xlen) : BlockResult xlen :=
  if inRange a s.memorySize then k a.toNat else raise s (.memoryAddressOutOfBounds a)

/-- The cell a stack access names through `sp`. The stack checks and the invariant on `sp` keep it in
range (R120, R121); a state that breaks the invariant faults (log entry 8). -/
def stackCell (s : Block xlen) (a : Int) (k : Nat → BlockResult xlen) : BlockResult xlen :=
  if inRange a s.memorySize then k a.toNat else .fault (.noSuchCell a)

/-! ## The normal end of a run -/

/-- The number of live stack entries, `MEMORY_SIZE - 1 - sp` (R124, R191). -/
def Block.stackDepth (s : Block xlen) : Nat := ((s.memorySize : Int) - 1 - s.sp.toInt).toNat

/-- The live stack `Mem[sp + 1]` to `Mem[MEMORY_SIZE - 1]` in ascending address order (R191, R192). -/
def Block.liveStack (s : Block xlen) : List (Word xlen) :=
  (List.range' (s.sp.toInt + 1).toNat s.stackDepth).map s.cell

/-- The snapshot of a state (R191). -/
def Block.takeSnapshot (s : Block xlen) : Snapshot xlen where
  registers := s.regs
  stack     := s.liveStack

/-- `status <- DONE`, and the snapshot is taken in the same step (R171, R177, R190). -/
def Block.finish (s : Block xlen) : Block xlen :=
  { s with status := .done, snapshot := some s.takeSnapshot }

end Sys2Proof.Machine
end

