-- ==== Sys2Proof/Machine/Operands.lean ====
section
/-! DEFINITION. The operand classes of R77 as operations: each checks the fields its class uses in
field order (R23, R214) and hands the instruction the register numbers, cell addresses or words they
name. The `addr` field of a jump is not checked (R150), so the classes A and N need no operation. -/

namespace Sys2Proof.Machine

variable {xlen : Nat}

/-- Class RRR: three register numbers, checked in the order `reg1`, `reg2`, `reg3` (R105, R139). -/
def operandsRRR (s : Block xlen) (reg1 reg2 reg3 : Int) (k : Nat → Nat → Nat → BlockResult xlen) : BlockResult xlen :=
  checkReg s reg1 fun a => checkReg s reg2 fun b => checkReg s reg3 fun d => k a b d

/-- Class RR, and the register part of class RRA: two register numbers (R139). -/
def operandsRR (s : Block xlen) (reg1 reg2 : Int) (k : Nat → Nat → BlockResult xlen) : BlockResult xlen :=
  checkReg s reg1 fun a => checkReg s reg2 fun b => k a b

/-- Class RA with a cell address (STORE, LOAD): the register, then the address (R113). -/
def operandsRegCell (s : Block xlen) (reg1 addr : Int) (k : Nat → Nat → BlockResult xlen) : BlockResult xlen :=
  checkReg s reg1 fun r => checkAddr s addr fun a => k r a

/-- Class R, and the register part of class RA with a program index (JZ, JNZ): one register number. -/
def operandsR (s : Block xlen) (reg1 : Int) (k : Nat → BlockResult xlen) : BlockResult xlen := checkReg s reg1 k

/-- Class RI: a register number and the immediate, the whole field unchanged (R75, R112). -/
def operandsRI (s : Block xlen) (reg1 immediate : Int) (k : Nat → Word xlen → BlockResult xlen) : BlockResult xlen :=
  checkReg s reg1 fun r => k r (BitVec.ofInt xlen immediate)

/-- The shared form of the class RRR results: `x[reg3] <- f(x[reg1], x[reg2])`, both operands read
before the write (R12). -/
def resultRRR (f : Word xlen → Word xlen → Word xlen) (s : Block xlen) (reg1 reg2 reg3 : Int) : BlockResult xlen :=
  operandsRRR s reg1 reg2 reg3 fun a b d => .next (s.setReg d (f (s.reg a) (s.reg b)))

end Sys2Proof.Machine
end

