-- ==== Sys2Proof/Machine/Arithmetic.lean ====
section
/-! DEFINITION. ADD, SUB, MUL, DIV (spec/40_arithmetic.md). A meaning is the instruction's own rule:
its checks, then its writes; the update of `pc` and `icount` is the engine's (R13). -/

namespace Sys2Proof.Machine

/-- R100. -/
def execAdd (reg1 reg2 reg3 : Int) (s : State) : Result := s.via fun s => resultRRR addResult s reg1 reg2 reg3

/-- R101. -/
def execSub (reg1 reg2 reg3 : Int) (s : State) : Result := s.via fun s => resultRRR subResult s reg1 reg2 reg3

/-- R102. -/
def execMul (reg1 reg2 reg3 : Int) (s : State) : Result := s.via fun s => resultRRR mulResult s reg1 reg2 reg3

/-- R103: the zero test comes after all three register checks. -/
def execDiv (reg1 reg2 reg3 : Int) (s : State) : Result := s.via fun s =>
  operandsRRR s reg1 reg2 reg3 fun a b d =>
    if s.reg b = 0 then raise s .divisionByZero
    else .next (s.setReg d (divResult (s.reg a) (s.reg b)))

end Sys2Proof.Machine
end

