-- ==== Sys2Proof/Machine/Flags.lean ====
section
/-! DEFINITION. The comparisons. The machine has no flag register and no condition codes (R26): the
only comparison results it keeps are the values CMP and TEST leave in `x[0]` (R147), and the
conditional jumps test the registers they name. -/

namespace Sys2Proof.Machine

variable {xlen : Nat}

/-- CMP's value: the signed order of the operands, the sign of the exact difference (R145, decision
D10). -/
def cmpResult (a b : Word xlen) : Word xlen :=
  if a.toInt < b.toInt then -1 else if a.toInt = b.toInt then 0 else 1

/-- TEST's value: the full bitwise AND (R146). -/
def testResult (a b : Word xlen) : Word xlen := a &&& b

/-- The condition of JZ; JNZ takes the opposite (R152, R153). -/
def isZero (a : Word xlen) : Bool := decide (a.toInt = 0)

/-- The condition of JE; JNE takes the opposite (R154, R155). -/
def isEqual (a b : Word xlen) : Bool := decide (a.toInt = b.toInt)

end Sys2Proof.Machine
end

