-- ==== Sys2Proof/Machine/Compare.lean ====
section
/-! DEFINITION. CMP and TEST (spec/44_compare.md). Both write `x[0]`, whatever their fields hold
(R147). -/

namespace Sys2Proof.Machine

/-- R145. -/
def execCmp (reg1 reg2 : Int) (s : State) : Result := s.via fun s =>
  operandsRR s reg1 reg2 fun a b => .next (s.setReg 0 (cmpResult (s.reg a) (s.reg b)))

/-- R146. -/
def execTest (reg1 reg2 : Int) (s : State) : Result := s.via fun s =>
  operandsRR s reg1 reg2 fun a b => .next (s.setReg 0 (testResult (s.reg a) (s.reg b)))

end Sys2Proof.Machine
end

