-- ==== Sys2Proof/Machine/Control.lean ====
section
/-! DEFINITION. JMP, JZ, JNZ, JE, JNE, HALT (spec/45_control.md). No jump checks its target (R150), and
a jump that is not taken sets nothing. What `pc` and `icount` become afterwards is the engine's
(R175 to R177). -/

namespace Sys2Proof.Machine

/-- `if condition then pc <- addr`. -/
def jumpIf {xlen : Nat} (condition : Bool) (addr : Int) (s : Block xlen) : BlockResult xlen :=
  .next (if condition then s.setPc addr else s)

/-- R151. -/
def execJmp (addr : Int) (s : State) : Result := s.via fun s => .next (s.setPc addr)

/-- R152. -/
def execJz (reg1 addr : Int) (s : State) : Result := s.via fun s =>
  operandsR s reg1 fun r => jumpIf (isZero (s.reg r)) addr s

/-- R153. -/
def execJnz (reg1 addr : Int) (s : State) : Result := s.via fun s =>
  operandsR s reg1 fun r => jumpIf (!isZero (s.reg r)) addr s

/-- R154. -/
def execJe (reg1 reg2 addr : Int) (s : State) : Result := s.via fun s =>
  operandsRR s reg1 reg2 fun a b => jumpIf (isEqual (s.reg a) (s.reg b)) addr s

/-- R155. -/
def execJne (reg1 reg2 addr : Int) (s : State) : Result := s.via fun s =>
  operandsRR s reg1 reg2 fun a b => jumpIf (!isEqual (s.reg a) (s.reg b)) addr s

/-- R156: the run ends normally and the snapshot is taken. -/
def execHalt (s : State) : Result := s.via fun s => .next s.finish

end Sys2Proof.Machine
end

