-- ==== Sys2Proof/Machine/MemoryAccess.lean ====
section
/-! DEFINITION. STORE, LOAD, LOAD_IMMEDIATE (spec/41_memory_access.md). The one addressing mode is the
absolute cell address in `addr` (R75). -/

namespace Sys2Proof.Machine

/-- R110. -/
def execStore (reg1 addr : Int) (s : State) : Result := s.via fun s =>
  operandsRegCell s reg1 addr fun r a => .next (s.setCell a (s.reg r))

/-- R111. -/
def execLoad (reg1 addr : Int) (s : State) : Result := s.via fun s =>
  operandsRegCell s reg1 addr fun r a => .next (s.setReg r (s.cell a))

/-- R112. -/
def execLoadImmediate (reg1 immediate : Int) (s : State) : Result := s.via fun s =>
  operandsRI s reg1 immediate fun r v => .next (s.setReg r v)

end Sys2Proof.Machine
end

