-- ==== Sys2Proof/Machine/MoveLogicShift.lean ====
section
/-! DEFINITION. MOV, AND, OR, XOR, SHL, SHR, NOT (spec/43_move_logic_shift.md). -/

namespace Sys2Proof.Machine

/-- R130: the destination is `reg1`. -/
def execMov (reg1 reg2 : Int) (s : State) : Result := s.via fun s =>
  operandsRR s reg1 reg2 fun d a => .next (s.setReg d (s.reg a))

/-- R131. -/
def execAnd (reg1 reg2 reg3 : Int) (s : State) : Result := s.via fun s => resultRRR andResult s reg1 reg2 reg3

/-- R132. -/
def execOr (reg1 reg2 reg3 : Int) (s : State) : Result := s.via fun s => resultRRR orResult s reg1 reg2 reg3

/-- R133. -/
def execXor (reg1 reg2 reg3 : Int) (s : State) : Result := s.via fun s => resultRRR xorResult s reg1 reg2 reg3

/-- R134. -/
def execShl (reg1 reg2 reg3 : Int) (s : State) : Result := s.via fun s => resultRRR shlResult s reg1 reg2 reg3

/-- R135. -/
def execShr (reg1 reg2 reg3 : Int) (s : State) : Result := s.via fun s => resultRRR shrResult s reg1 reg2 reg3

/-- R136: the destination is `reg2`. -/
def execNot (reg1 reg2 : Int) (s : State) : Result := s.via fun s =>
  operandsRR s reg1 reg2 fun a d => .next (s.setReg d (notResult (s.reg a)))

end Sys2Proof.Machine
end

