-- ==== Sys2Proof/Machine/Stack.lean ====
section
/-! DEFINITION. PUSH and POP (spec/42_stack.md). `sp` names the next free cell and the stack grows
toward address 0 (R30). The register is checked first, then the stack condition (R122). -/

namespace Sys2Proof.Machine

/-- R120: store at `sp`, then decrement. -/
def execPush (reg1 : Int) (s : State) : Result := s.via fun s =>
  operandsR s reg1 fun r =>
    if s.sp.toInt < 0 then raise s .stackOverflow
    else stackCell s s.sp.toInt fun a => .next ((s.setCell a (s.reg r)).setSp (s.sp - 1))

/-- R121: increment `sp`, then load from it. The cell keeps its value (R60). -/
def execPop (reg1 : Int) (s : State) : Result := s.via fun s =>
  operandsR s reg1 fun r =>
    if s.sp.toInt ≥ (s.memorySize : Int) - 1 then raise s .stackUnderflow
    else stackCell s (s.sp.toInt + 1) fun a => .next ((s.setSp (s.sp + 1)).setReg r (s.cell a))

end Sys2Proof.Machine
end

