-- ==== Sys2Proof/Machine/Dispatch.lean ====
section
/-! DEFINITION. Dispatch to the instruction's own rule (R174): one arm per instruction. -/

namespace Sys2Proof.Machine

/-- `Exec(I)` of R170: the checks and writes of the instruction's own rule. -/
def exec (i : Instr) (s : State) : Host.Outcome State Fault Refusal :=
  match i with
  | .add a b c => Sys2Proof.Machine.execAdd a b c s
  | .sub a b c => Sys2Proof.Machine.execSub a b c s
  | .mul a b c => Sys2Proof.Machine.execMul a b c s
  | .div a b c => Sys2Proof.Machine.execDiv a b c s
  | .store r a => Sys2Proof.Machine.execStore r a s
  | .load r a => Sys2Proof.Machine.execLoad r a s
  | .loadImmediate r v => Sys2Proof.Machine.execLoadImmediate r v s
  | .push r => Sys2Proof.Machine.execPush r s
  | .pop r => Sys2Proof.Machine.execPop r s
  | .mov a b => Sys2Proof.Machine.execMov a b s
  | .and a b c => Sys2Proof.Machine.execAnd a b c s
  | .or a b c => Sys2Proof.Machine.execOr a b c s
  | .xor a b c => Sys2Proof.Machine.execXor a b c s
  | .shl a b c => Sys2Proof.Machine.execShl a b c s
  | .shr a b c => Sys2Proof.Machine.execShr a b c s
  | .not a b => Sys2Proof.Machine.execNot a b s
  | .cmp a b => Sys2Proof.Machine.execCmp a b s
  | .test a b => Sys2Proof.Machine.execTest a b s
  | .jmp a => Sys2Proof.Machine.execJmp a s
  | .jz r a => Sys2Proof.Machine.execJz r a s
  | .jnz r a => Sys2Proof.Machine.execJnz r a s
  | .je a b t => Sys2Proof.Machine.execJe a b t s
  | .jne a b t => Sys2Proof.Machine.execJne a b t s
  | .halt => Sys2Proof.Machine.execHalt s

end Sys2Proof.Machine
end

