-- ==== Sys2Proof/Machine/Engine.lean ====
section
/-! DEFINITION. The execution engine (spec/47_execution_engine.md): the launch premise, the loop test,
the guard, the fetch, the decode and dispatch, and the update of `pc` and `icount` by opcode class. -/

namespace Sys2Proof.Machine

variable {xlen : Nat}

/-- A run parameter's range (R8, D22). -/
def parameterOk (xlen n : Nat) : Bool := decide (1 ≤ n ∧ n ≤ Config.maxParameter xlen)

/-- The preconditions of reset, the host's duty (R241, D22). The ranges leave no parameter to a width
below 2 (log entry 29). -/
def launchOk (l : Launch) : Bool :=
  parameterOk l.xlen l.numRegisters && parameterOk l.xlen l.memorySize
    && parameterOk l.xlen l.maxInstructionCount && decide (l.program.length ≤ Config.maxParameter l.xlen)

/-- The run inputs a block holds, which reset latched (R32). -/
def Block.inputs (s : Block xlen) : Launch where
  xlen                := xlen
  numRegisters        := s.numRegisters
  memorySize          := s.memorySize
  maxInstructionCount := s.maxInstructionCount
  unknownOpcodePolicy := s.unknownOpcodePolicy
  program             := s.program

/-- The classes of the post-dispatch update (R14, R175 to R177). -/
inductive DispatchClass where
  | counted
  | jump
  | halt
deriving DecidableEq, Repr

/-- The class of each instruction: JE and JNE are counted, JMP, JZ and JNZ are not (R175, R176). -/
def dispatchClass : Instr → DispatchClass
  | .add .. | .sub .. | .mul .. | .div .. => .counted
  | .store .. | .load .. | .loadImmediate .. => .counted
  | .push .. | .pop .. => .counted
  | .mov .. | .and .. | .or .. | .xor .. | .shl .. | .shr .. | .not .. => .counted
  | .cmp .. | .test .. => .counted
  | .je .. | .jne .. => .counted
  | .jmp .. | .jz .. | .jnz .. => .jump
  | .halt => .halt

/-- `pc <- pc + 1; icount <- icount + 1` (R176). -/
def Block.advance (s : Block xlen) : Block xlen := { s with pc := s.pc + 1, icount := s.icount + 1 }

/-- The post-dispatch update of a class (R175 to R177), on the block the dispatch left. It does not
happen when the dispatch ended the run (R174, R177). -/
def afterDispatch (c : DispatchClass) (s : Block xlen) : Block xlen :=
  match s.status, c with
  | .running, .counted => s.advance
  | .running, .jump => s
  | .running, .halt => s
  | .done, _ => s
  | .failed, _ => s

/-- Apply the post-dispatch update to a result that goes on. -/
def completeDispatch (c : DispatchClass) : Result → Result
  | .next t => .next ⟨t.xlen, afterDispatch c t.block⟩
  | .fault f => .fault f
  | .refused r => .refused r

/-- What a word that selects no instruction does: raise, or act as a counted instruction that reads
and writes nothing (R79, decision D11). -/
def unknownOpcode (op : Int) (s : Block xlen) : BlockResult xlen :=
  match s.unknownOpcodePolicy with
  | .fault => raise s (.unknownOpcode op)
  | .nop => .next s.advance

/-- The loop test: `instruction_pointer < program_size`, signed (R171). -/
def Block.inProgram (s : Block xlen) : Bool := decide (s.pc.toInt < s.programSize)

/-- The guard: `instruction_count >= max_instruction_count` (R172). -/
def Block.limitReached (s : Block xlen) : Bool := decide (s.icount.toInt ≥ s.maxInstructionCount)

/-- `Program[pc]`, one whole word (R173). The loop test and the test `pc < 0` have put `pc` inside the
program, so the default is never used (log entry 26). -/
def Block.fetch (s : Block xlen) : InstrWord xlen := s.program.getD s.pc.toInt.toNat 0

/-- Decode the word, run the instruction's rule and the update of its class (R174). -/
def dispatchWord (w : InstrWord xlen) (s : Block xlen) : Result :=
  match decode w with
  | .instr i => completeDispatch (dispatchClass i) (exec i ⟨xlen, s⟩)
  | .unknownOpcode op => lift (unknownOpcode op s)

/-- One step of a running machine (R170): the loop test, the guard, the fetch, the dispatch. -/
def runningStep (s : Block xlen) : Result :=
  if !s.inProgram then lift (.next s.finish)
  else if s.limitReached then lift (raise s .instructionLimitExceeded)
  else if s.pc.toInt < 0 then lift (raise s (.invalidJumpTarget s.pc.toInt))
  else dispatchWord s.fetch s

/-- A step is defined only while `status = RUNNING` (R170), and only for a machine whose launch kept
the preconditions (R241). -/
def engineStep (s : Block xlen) : Result :=
  match s.status with
  | .running => if launchOk s.inputs then runningStep s else .refused .launchPrecondition
  | .done => .fault .notRunning
  | .failed => .fault .notRunning

/-! ## Loading a program -/

/-- The program with word `w` at index `k`; a program that is too short is filled up before it. -/
def placeWord : List (InstrWord xlen) → Nat → InstrWord xlen → List (InstrWord xlen)
  | [], 0, w => [w]
  | [], k + 1, w => 0 :: placeWord [] k w
  | _ :: p, 0, w => w :: p
  | v :: p, k + 1, w => v :: placeWord p k w

/-- A block that is about to fetch: still running, at an index of the program space, with the guard
not reached. A running block that can fetch is left as it is. -/
def Block.readyToFetch (s : Block xlen) : Block xlen :=
  { s with
    pc := if s.pc.toInt < 0 then 0 else s.pc
    icount := if s.limitReached then 0 else s.icount
    status := .running
    err := none
    snapshot := none }

/-- The block with word `w` stored where it fetches next (log entry 4). -/
def Block.loadWord (s : Block xlen) (w : InstrWord xlen) : Block xlen :=
  { s.readyToFetch with program := placeWord s.program s.readyToFetch.pc.toInt.toNat w }

end Sys2Proof.Machine
end

