-- ==== Sys2Proof/Machine/Step.lean ====
section
/-! DEFINITION. One step of the machine, and the machine with a word placed where it fetches next. -/

namespace Sys2Proof.Machine

/-- One step (R170). -/
def step (s : State) : Host.Outcome State Fault Refusal := engineStep s.block

/-- `s` with the word whose bits are `w`, every bit above `nbits` zero, loaded as the instruction the
next step fetches (log entry 4). -/
def State.withFetchWord (s : State) (nbits w : Nat) : State :=
  ⟨s.xlen, s.block.loadWord (BitVec.ofNat _ (w % 2 ^ nbits))⟩

end Sys2Proof.Machine
end

