-- ==== Sys2Proof/Machine/HostPort.lean ====
section
/-! DEFINITION. The host's side of the block (spec/70_reset_and_hazards.md R243): starting a run and
reading its result. -/

namespace Sys2Proof.Machine

/-- Reset and start with the host's inputs (R240); a launch that breaks the preconditions is refused
(R241, D22). -/
def launch (l : Launch) : Result :=
  if launchOk l then .next (State.resetWith l) else .refused .launchPrecondition

/-- What the host gets back (R243). -/
inductive HostView (xlen : Nat) where
  /-- the run has not ended -/
  | nothingYet
  /-- `status = DONE`: the snapshot -/
  | result (snapshot : Snapshot xlen)
  /-- `status = FAILED`: the error's code and information -/
  | failure (code : Nat) (info : Option Int)
deriving DecidableEq, Repr

/-- The host sees the snapshot of a DONE run, the error of a FAILED run, and nothing else (R195, R213,
R243). -/
def hostView (s : State) : HostView s.xlen :=
  match s.block.status, s.block.snapshot, s.block.err with
  | .done, some p, _ => .result p
  | .failed, _, some e => .failure (errorCode e) (errorInfo e)
  | _, _, _ => .nothingYet

end Sys2Proof.Machine
end

