-- ==== Sys2Proof/Safety.lean ====
section
/-! DEFINITION. The terms claims are stated in: the machine's invariant, what a reachable state is,
when an instruction can be fetched, and the register and memory access pattern of R22. -/

namespace Sys2Proof.Machine

variable {xlen : Nat}

/-! ## Conditions on operands -/

/-- `r` is the number of a register (R23). -/
abbrev Block.hasRegister (s : Block xlen) (r : Int) : Prop := 0 ≤ r ∧ r < s.numRegisters

/-- `a` is the address of a cell (R53). -/
abbrev Block.hasCell (s : Block xlen) (a : Int) : Prop := 0 ≤ a ∧ a < s.memorySize

/-- The first register number of a list that is out of range, if there is one (R23, R214). -/
def firstBadRegister (s : Block xlen) (rs : List Int) : Option Int :=
  rs.find? fun r => decide (r < 0 ∨ r ≥ s.numRegisters)

/-- Instruction `i` reports the first of its used register fields `rs` that is out of range, and
changes nothing else (R23, R212). -/
def ReportsBadRegister (i : Instr) (rs : List Int) (s : Block xlen) : Prop :=
  ∀ r, firstBadRegister s rs = some r → exec i ⟨xlen, s⟩ = .next ⟨xlen, s.fail (.registerOutOfBounds r)⟩

/-! ## The access pattern of R22 -/

/-- The register fields an instruction uses, in field order (R77). -/
def registerFields : Instr → List Int
  | .add a b c | .sub a b c | .mul a b c | .div a b c => [a, b, c]
  | .and a b c | .or a b c | .xor a b c | .shl a b c | .shr a b c => [a, b, c]
  | .store r _ | .load r _ | .loadImmediate r _ | .push r | .pop r | .jz r _ | .jnz r _ => [r]
  | .mov a b | .not a b | .cmp a b | .test a b | .je a b _ | .jne a b _ => [a, b]
  | .jmp _ | .halt => []

/-- The registers an instruction reads (R22). -/
def readRegisters : Instr → List Int
  | .add a b _ | .sub a b _ | .mul a b _ | .div a b _ => [a, b]
  | .and a b _ | .or a b _ | .xor a b _ | .shl a b _ | .shr a b _ => [a, b]
  | .store r _ | .push r | .jz r _ | .jnz r _ => [r]
  | .mov _ b => [b]
  | .not a _ => [a]
  | .cmp a b | .test a b | .je a b _ | .jne a b _ => [a, b]
  | .load _ _ | .loadImmediate _ _ | .pop _ | .jmp _ | .halt => []

/-- The register an instruction writes (R22). -/
def writtenRegister : Instr → Option Int
  | .add _ _ c | .sub _ _ c | .mul _ _ c | .div _ _ c => some c
  | .and _ _ c | .or _ _ c | .xor _ _ c | .shl _ _ c | .shr _ _ c => some c
  | .load r _ | .loadImmediate r _ | .pop r => some r
  | .mov a _ => some a
  | .not _ b => some b
  | .cmp _ _ | .test _ _ => some 0
  | .store _ _ | .push _ | .jmp _ | .jz _ _ | .jnz _ _ | .je _ _ _ | .jne _ _ _ | .halt => none

/-- The cell an instruction stores to: STORE's `addr`, PUSH's `sp` (R50). -/
def storedCell (i : Instr) (s : Block xlen) : Option Int :=
  match i with
  | .store _ a => some a
  | .push _ => some s.sp.toInt
  | .add .. | .sub .. | .mul .. | .div .. | .and .. | .or .. | .xor .. | .shl .. | .shr .. => none
  | .load .. | .loadImmediate .. | .pop .. | .mov .. | .not .. | .cmp .. | .test .. => none
  | .jmp .. | .jz .. | .jnz .. | .je .. | .jne .. | .halt => none

/-- The block after a result that goes on, changed by `f`, which is given at every width. -/
def mapNext (f : (xlen : Nat) → Block xlen → Block xlen) : Result → Result
  | .next t => .next ⟨t.xlen, f t.xlen t.block⟩
  | .fault e => .fault e
  | .refused r => .refused r

/-! ## The engine -/

/-- A running machine, launched within the preconditions, that fetches the word `w` in its next step:
the guard has not been reached and `pc` is the index of `w` in the program (R171 to R173). -/
structure Fetches (s : Block xlen) (w : InstrWord xlen) : Prop where
  running  : s.status = .running
  launched : launchOk s.inputs = true
  counted  : s.icount.toInt < s.maxInstructionCount
  index    : 0 ≤ s.pc.toInt
  word     : s.program[s.pc.toInt.toNat]? = some w

/-! ## The invariant -/

/-- What holds of the block at every moment of every run, at every width. -/
structure Block.Inv (s : Block xlen) : Prop where
  /-- the run inputs are in their ranges (R241) -/
  inputs : launchOk s.inputs = true
  /-- memory is in its canonical form (log entry 5) -/
  memory : Memory.wf s.memory
  /-- every listed cell exists (R51) -/
  cells : ∀ c ∈ s.memory, c.1 < s.memorySize
  /-- `-1 <= sp <= MEMORY_SIZE - 1` (R30) -/
  stackPointer : -1 ≤ s.sp.toInt ∧ s.sp.toInt ≤ (s.memorySize : Int) - 1
  /-- `0 <= icount <= MAX_INSTRUCTION_COUNT` (R31) -/
  count : 0 ≤ s.icount.toInt ∧ s.icount.toInt ≤ s.maxInstructionCount
  /-- `pc` never exceeds 2^(XLEN-1) (R29), and no field is below -2^(XLEN-1) -/
  pointer : -2 ^ (xlen - 1) ≤ s.pc.toInt ∧ s.pc.toInt ≤ 2 ^ (xlen - 1)
  /-- while the run goes on there is no error and no snapshot (R44, R190) -/
  whileRunning : s.status = .running → s.err = none ∧ s.snapshot = none
  /-- a normal end holds the snapshot of its state and no error (R33, R190) -/
  whenDone : s.status = .done → s.err = none ∧ s.snapshot = some s.takeSnapshot
  /-- a failed run holds its error and no snapshot (R33, R212) -/
  whenFailed : s.status = .failed → s.err ≠ none ∧ s.snapshot = none

/-- What holds of the machine at every moment of every run. -/
abbrev State.Inv (s : State) : Prop := s.block.Inv

/-- The states a run that the host launched within the preconditions can be in (R180, R241). -/
inductive Reachable : State → Prop where
  | launched (l : Launch) (h : launchOk l = true) : Reachable (State.resetWith l)
  | stepped {s t : State} (h : Reachable s) (e : step s = .next t) : Reachable t

/-- A safe outcome: the machine goes on to a next state (a run's error among them), and does not stop
with a fault or a refusal. -/
def SafeResult (r : Result) : Prop := ∃ t, r = .next t

end Sys2Proof.Machine
end

