-- ==== Sys2Proof/Certificates/Slice0/Obligations.lean ====
section
/-! DEFINITION. The statements for the provers. Each cites the rule of spec/ it formalises; a clause
that rests on a decision of spec/92_eei_decisions.md (`D<n>`) or on a choice of this model names it.

A statement holds at every width `xlen`, the parameter `XLEN` of R8 and D1, whose default is 32: where a
rule writes 32 for the width it states that rule at `XLEN`. Each is about the block of the machine
`⟨xlen, s⟩`. -/

open Sys2Proof Sys2Proof.Machine

/-! ## The instructions

Each statement says what the instruction does on valid operands, which error it reports otherwise
(nothing else changing), and the class of its post-dispatch update. -/

/-- ADD writes the wrapped sum of `x[reg1]` and `x[reg2]` to `x[reg3]` (R100; the wrap is D7). -/
def Obligations.AddWritesWrappedSum : Prop :=
  ∀ (xlen : Nat) (s : Block xlen) (reg1 reg2 reg3 : Int),
    (s.hasRegister reg1 → s.hasRegister reg2 → s.hasRegister reg3 →
      exec (.add reg1 reg2 reg3) ⟨xlen, s⟩ = .next ⟨xlen, s.setReg reg3.toNat
        (BitVec.ofInt xlen ((s.reg reg1.toNat).toInt + (s.reg reg2.toNat).toInt))⟩) ∧
    ReportsBadRegister (.add reg1 reg2 reg3) [reg1, reg2, reg3] s ∧
    dispatchClass (.add reg1 reg2 reg3) = .counted

/-- SUB writes the wrapped difference, `reg1` minus `reg2` (R101; the wrap is D7). -/
def Obligations.SubWritesWrappedDifference : Prop :=
  ∀ (xlen : Nat) (s : Block xlen) (reg1 reg2 reg3 : Int),
    (s.hasRegister reg1 → s.hasRegister reg2 → s.hasRegister reg3 →
      exec (.sub reg1 reg2 reg3) ⟨xlen, s⟩ = .next ⟨xlen, s.setReg reg3.toNat
        (BitVec.ofInt xlen ((s.reg reg1.toNat).toInt - (s.reg reg2.toNat).toInt))⟩) ∧
    ReportsBadRegister (.sub reg1 reg2 reg3) [reg1, reg2, reg3] s ∧
    dispatchClass (.sub reg1 reg2 reg3) = .counted

/-- MUL writes the low `XLEN` bits of the signed product (R102; the wrap is D7). -/
def Obligations.MulWritesWrappedProduct : Prop :=
  ∀ (xlen : Nat) (s : Block xlen) (reg1 reg2 reg3 : Int),
    (s.hasRegister reg1 → s.hasRegister reg2 → s.hasRegister reg3 →
      exec (.mul reg1 reg2 reg3) ⟨xlen, s⟩ = .next ⟨xlen, s.setReg reg3.toNat
        (BitVec.ofInt xlen ((s.reg reg1.toNat).toInt * (s.reg reg2.toNat).toInt))⟩) ∧
    ReportsBadRegister (.mul reg1 reg2 reg3) [reg1, reg2, reg3] s ∧
    dispatchClass (.mul reg1 reg2 reg3) = .counted

/-- DIV writes the quotient truncated toward zero; a divisor register that holds 0 raises
DivisionByZero, after all three register checks (R103; the wrap of the one quotient that does not fit
is D8). -/
def Obligations.DivWritesQuotientTowardZero : Prop :=
  ∀ (xlen : Nat) (s : Block xlen) (reg1 reg2 reg3 : Int),
    (s.hasRegister reg1 → s.hasRegister reg2 → s.hasRegister reg3 → (s.reg reg2.toNat).toInt ≠ 0 →
      exec (.div reg1 reg2 reg3) ⟨xlen, s⟩ = .next ⟨xlen, s.setReg reg3.toNat
        (BitVec.ofInt xlen (Int.tdiv (s.reg reg1.toNat).toInt (s.reg reg2.toNat).toInt))⟩) ∧
    (s.hasRegister reg1 → s.hasRegister reg2 → s.hasRegister reg3 → (s.reg reg2.toNat).toInt = 0 →
      exec (.div reg1 reg2 reg3) ⟨xlen, s⟩ = .next ⟨xlen, s.fail .divisionByZero⟩) ∧
    ReportsBadRegister (.div reg1 reg2 reg3) [reg1, reg2, reg3] s ∧
    dispatchClass (.div reg1 reg2 reg3) = .counted

/-- The rows of R106: DIV's result at every sign combination and at the edges, the last row being
decision D8. It holds at every width that holds the table's operands: 7 needs four bits. -/
def Obligations.DivEdgeResults : Prop :=
  ∀ xlen : Nat, 4 ≤ xlen →
  (divResult (BitVec.ofInt xlen 7) (BitVec.ofInt xlen 2)).toInt = 3 ∧
  (divResult (BitVec.ofInt xlen (-7)) (BitVec.ofInt xlen 2)).toInt = -3 ∧
  (divResult (BitVec.ofInt xlen 7) (BitVec.ofInt xlen (-2))).toInt = -3 ∧
  (divResult (BitVec.ofInt xlen (-7)) (BitVec.ofInt xlen (-2))).toInt = 3 ∧
  (∀ b : Word xlen, b.toInt ≠ 0 → (divResult 0 b).toInt = 0) ∧
  (divResult (BitVec.ofInt xlen 1) (BitVec.ofInt xlen 2)).toInt = 0 ∧
  (divResult (BitVec.ofInt xlen (-1)) (BitVec.ofInt xlen 2)).toInt = 0 ∧
  (∀ a : Word xlen, divResult a 1 = a) ∧
  (∀ a : Word xlen, a.toInt ≠ -2 ^ (xlen - 1) → (divResult a (BitVec.ofInt xlen (-1))).toInt = -a.toInt) ∧
  (divResult (BitVec.ofInt xlen (-2 ^ (xlen - 1))) (BitVec.ofInt xlen (-1))).toInt = -2 ^ (xlen - 1)

/-- STORE writes the register to the cell `addr`; a bad register is reported before a bad address, and
either leaves memory unchanged (R110; the order is D6). -/
def Obligations.StoreWritesItsCell : Prop :=
  ∀ (xlen : Nat) (s : Block xlen) (reg1 addr : Int),
    (s.hasRegister reg1 → s.hasCell addr →
      exec (.store reg1 addr) ⟨xlen, s⟩ = .next ⟨xlen, s.setCell addr.toNat (s.reg reg1.toNat)⟩) ∧
    (s.hasRegister reg1 → ¬ s.hasCell addr →
      exec (.store reg1 addr) ⟨xlen, s⟩ = .next ⟨xlen, s.fail (.memoryAddressOutOfBounds addr)⟩) ∧
    ReportsBadRegister (.store reg1 addr) [reg1] s ∧
    dispatchClass (.store reg1 addr) = .counted

/-- LOAD copies the cell `addr` to the register; a bad register is reported before a bad address
(R111; the order is D6). -/
def Obligations.LoadReadsItsCell : Prop :=
  ∀ (xlen : Nat) (s : Block xlen) (reg1 addr : Int),
    (s.hasRegister reg1 → s.hasCell addr →
      exec (.load reg1 addr) ⟨xlen, s⟩ = .next ⟨xlen, s.setReg reg1.toNat (s.cell addr.toNat)⟩) ∧
    (s.hasRegister reg1 → ¬ s.hasCell addr →
      exec (.load reg1 addr) ⟨xlen, s⟩ = .next ⟨xlen, s.fail (.memoryAddressOutOfBounds addr)⟩) ∧
    ReportsBadRegister (.load reg1 addr) [reg1] s ∧
    dispatchClass (.load reg1 addr) = .counted

/-- LOAD_IMMEDIATE copies the whole immediate field, read as a signed integer, to the register (R112). -/
def Obligations.LoadImmediateCopiesItsField : Prop :=
  ∀ (xlen : Nat) (s : Block xlen) (reg1 immediate : Int), inField xlen immediate = true →
    (s.hasRegister reg1 → ∃ v : Word xlen, v.toInt = immediate ∧
      exec (.loadImmediate reg1 immediate) ⟨xlen, s⟩ = .next ⟨xlen, s.setReg reg1.toNat v⟩) ∧
    ReportsBadRegister (.loadImmediate reg1 immediate) [reg1] s ∧
    dispatchClass (.loadImmediate reg1 immediate) = .counted

/-- PUSH stores the register at `sp` and then decrements `sp`; with `sp < 0` it raises StackOverflow,
after the register check (R120). `sp` names a cell by the invariant of R30, and a launched machine is at
least 2 bits wide by the ranges of R8. -/
def Obligations.PushStoresThenDecrements : Prop :=
  ∀ (xlen : Nat) (s : Block xlen) (reg1 : Int),
    (2 ≤ xlen → s.hasRegister reg1 → s.hasCell s.sp.toInt → ∃ v : Word xlen, v.toInt = s.sp.toInt - 1 ∧
      exec (.push reg1) ⟨xlen, s⟩ = .next ⟨xlen, (s.setCell s.sp.toInt.toNat (s.reg reg1.toNat)).setSp v⟩) ∧
    (s.hasRegister reg1 → s.sp.toInt < 0 → exec (.push reg1) ⟨xlen, s⟩ = .next ⟨xlen, s.fail .stackOverflow⟩) ∧
    ReportsBadRegister (.push reg1) [reg1] s ∧
    dispatchClass (.push reg1) = .counted

/-- POP increments `sp` and then loads the register from it, leaving the cell as it was; with
`sp >= MEMORY_SIZE - 1` it raises StackUnderflow, after the register check (R121). The hypotheses on
`sp` and the memory size are the invariant of R30 and the range of R8. -/
def Obligations.PopIncrementsThenLoads : Prop :=
  ∀ (xlen : Nat) (s : Block xlen) (reg1 : Int),
    (s.hasRegister reg1 → -1 ≤ s.sp.toInt → s.sp.toInt < (s.memorySize : Int) - 1 →
      s.memorySize ≤ Config.maxParameter xlen → ∃ v : Word xlen, v.toInt = s.sp.toInt + 1 ∧
      exec (.pop reg1) ⟨xlen, s⟩ = .next ⟨xlen, (s.setSp v).setReg reg1.toNat (s.cell v.toInt.toNat)⟩) ∧
    (s.hasRegister reg1 → s.sp.toInt ≥ (s.memorySize : Int) - 1 →
      exec (.pop reg1) ⟨xlen, s⟩ = .next ⟨xlen, s.fail .stackUnderflow⟩) ∧
    ReportsBadRegister (.pop reg1) [reg1] s ∧
    dispatchClass (.pop reg1) = .counted

/-- This model's choice (log entry 8): PUSH and POP stop with a fault when `sp` breaks the invariant of
R30 so that the access names no cell. -/
def Obligations.StackAccessOutsideMemoryFaults : Prop :=
  ∀ (xlen : Nat) (s : Block xlen) (reg1 : Int), s.hasRegister reg1 →
    (s.sp.toInt ≥ s.memorySize → exec (.push reg1) ⟨xlen, s⟩ = .fault (.noSuchCell s.sp.toInt)) ∧
    (s.sp.toInt < -1 → 1 ≤ s.memorySize → exec (.pop reg1) ⟨xlen, s⟩ = .fault (.noSuchCell (s.sp.toInt + 1)))

/-- MOV copies `x[reg2]` to `x[reg1]` (R130). -/
def Obligations.MovCopiesSecondToFirst : Prop :=
  ∀ (xlen : Nat) (s : Block xlen) (reg1 reg2 : Int),
    (s.hasRegister reg1 → s.hasRegister reg2 →
      exec (.mov reg1 reg2) ⟨xlen, s⟩ = .next ⟨xlen, s.setReg reg1.toNat (s.reg reg2.toNat)⟩) ∧
    ReportsBadRegister (.mov reg1 reg2) [reg1, reg2] s ∧
    dispatchClass (.mov reg1 reg2) = .counted

/-- AND, OR and XOR write the bitwise result of `x[reg1]` and `x[reg2]` to `x[reg3]`: bit `k` of the
result is the operation on bit `k` of the operands (R131, R132, R133). -/
def Obligations.LogicWritesBitwiseResult : Prop :=
  ∀ (xlen : Nat) (s : Block xlen) (reg1 reg2 reg3 : Int),
    (s.hasRegister reg1 → s.hasRegister reg2 → s.hasRegister reg3 →
      ∃ va vo vx : Word xlen,
        (∀ k, k < xlen →
          va.getLsbD k = ((s.reg reg1.toNat).getLsbD k && (s.reg reg2.toNat).getLsbD k) ∧
          vo.getLsbD k = ((s.reg reg1.toNat).getLsbD k || (s.reg reg2.toNat).getLsbD k) ∧
          vx.getLsbD k = ((s.reg reg1.toNat).getLsbD k ^^ (s.reg reg2.toNat).getLsbD k)) ∧
        exec (.and reg1 reg2 reg3) ⟨xlen, s⟩ = .next ⟨xlen, s.setReg reg3.toNat va⟩ ∧
        exec (.or reg1 reg2 reg3) ⟨xlen, s⟩ = .next ⟨xlen, s.setReg reg3.toNat vo⟩ ∧
        exec (.xor reg1 reg2 reg3) ⟨xlen, s⟩ = .next ⟨xlen, s.setReg reg3.toNat vx⟩) ∧
    (ReportsBadRegister (.and reg1 reg2 reg3) [reg1, reg2, reg3] s ∧
      ReportsBadRegister (.or reg1 reg2 reg3) [reg1, reg2, reg3] s ∧
      ReportsBadRegister (.xor reg1 reg2 reg3) [reg1, reg2, reg3] s) ∧
    dispatchClass (.and reg1 reg2 reg3) = .counted ∧
    dispatchClass (.or reg1 reg2 reg3) = .counted ∧
    dispatchClass (.xor reg1 reg2 reg3) = .counted

/-- SHL writes `wrap_XLEN(a * 2^s)` with the count `s = x[reg2] mod XLEN` (R134; the count and the dropped
bits are D9). At the default width that is the rule's `mod 32`; that the count is taken modulo `XLEN` at
another width is this model's choice (log entry 30). -/
def Obligations.ShlMultipliesByPowerOfTwo : Prop :=
  ∀ (xlen : Nat) (s : Block xlen) (reg1 reg2 reg3 : Int),
    (s.hasRegister reg1 → s.hasRegister reg2 → s.hasRegister reg3 →
      exec (.shl reg1 reg2 reg3) ⟨xlen, s⟩ = .next ⟨xlen, s.setReg reg3.toNat
        (BitVec.ofInt xlen ((s.reg reg1.toNat).toInt * 2 ^ ((s.reg reg2.toNat).toInt % xlen).toNat))⟩) ∧
    ReportsBadRegister (.shl reg1 reg2 reg3) [reg1, reg2, reg3] s ∧
    dispatchClass (.shl reg1 reg2 reg3) = .counted

/-- SHR writes `floor(a / 2^s)` with the count `s = x[reg2] mod XLEN`: the quotient `q` with
`q * 2^s <= a < (q + 1) * 2^s` (R135; the count and the sign fill are D9). At the default width that is
the rule's `mod 32`; that the count is taken modulo `XLEN` at another width is this model's choice (log
entry 30). -/
def Obligations.ShrDividesRoundingDown : Prop :=
  ∀ (xlen : Nat) (s : Block xlen) (reg1 reg2 reg3 : Int),
    (s.hasRegister reg1 → s.hasRegister reg2 → s.hasRegister reg3 →
      ∃ q : Word xlen,
        q.toInt * 2 ^ ((s.reg reg2.toNat).toInt % xlen).toNat ≤ (s.reg reg1.toNat).toInt ∧
        (s.reg reg1.toNat).toInt < (q.toInt + 1) * 2 ^ ((s.reg reg2.toNat).toInt % xlen).toNat ∧
        exec (.shr reg1 reg2 reg3) ⟨xlen, s⟩ = .next ⟨xlen, s.setReg reg3.toNat q⟩) ∧
    ReportsBadRegister (.shr reg1 reg2 reg3) [reg1, reg2, reg3] s ∧
    dispatchClass (.shr reg1 reg2 reg3) = .counted

/-- NOT writes the complement of `x[reg1]`, which is `-a - 1`, to `x[reg2]` (R136, R137). A launched machine
is at least 2 bits wide by the ranges of R8. -/
def Obligations.NotComplementsFirstIntoSecond : Prop :=
  ∀ (xlen : Nat) (s : Block xlen) (reg1 reg2 : Int),
    (2 ≤ xlen → s.hasRegister reg1 → s.hasRegister reg2 →
      ∃ v : Word xlen, v = ~~~(s.reg reg1.toNat) ∧ v.toInt = -(s.reg reg1.toNat).toInt - 1 ∧
        exec (.not reg1 reg2) ⟨xlen, s⟩ = .next ⟨xlen, s.setReg reg2.toNat v⟩) ∧
    ReportsBadRegister (.not reg1 reg2) [reg1, reg2] s ∧
    dispatchClass (.not reg1 reg2) = .counted

/-- CMP writes the signed order of `x[reg1]` and `x[reg2]` to `x[0]`: the sign of the exact difference
(R145; that the difference is exact is D10). A launched machine is at least 2 bits wide by the ranges of
R8. -/
def Obligations.CmpWritesSignedOrderToRegisterZero : Prop :=
  ∀ (xlen : Nat) (s : Block xlen) (reg1 reg2 : Int),
    (2 ≤ xlen → s.hasRegister reg1 → s.hasRegister reg2 →
      ∃ v : Word xlen, v.toInt = Int.sign ((s.reg reg1.toNat).toInt - (s.reg reg2.toNat).toInt) ∧
        exec (.cmp reg1 reg2) ⟨xlen, s⟩ = .next ⟨xlen, s.setReg 0 v⟩) ∧
    ReportsBadRegister (.cmp reg1 reg2) [reg1, reg2] s ∧
    dispatchClass (.cmp reg1 reg2) = .counted

/-- TEST writes the full bitwise AND of `x[reg1]` and `x[reg2]` to `x[0]` (R146). -/
def Obligations.TestWritesBitwiseAndToRegisterZero : Prop :=
  ∀ (xlen : Nat) (s : Block xlen) (reg1 reg2 : Int),
    (s.hasRegister reg1 → s.hasRegister reg2 →
      exec (.test reg1 reg2) ⟨xlen, s⟩ = .next ⟨xlen, s.setReg 0 (s.reg reg1.toNat &&& s.reg reg2.toNat)⟩) ∧
    ReportsBadRegister (.test reg1 reg2) [reg1, reg2] s ∧
    dispatchClass (.test reg1 reg2) = .counted

/-- JMP sets `pc` to `addr` and checks nothing; it is of the jump class (R151). -/
def Obligations.JmpSetsPointer : Prop :=
  ∀ (xlen : Nat) (s : Block xlen) (addr : Int), inField xlen addr = true →
    (∃ p : Pc xlen, p.toInt = addr ∧ exec (.jmp addr) ⟨xlen, s⟩ = .next ⟨xlen, { s with pc := p }⟩) ∧
    dispatchClass (.jmp addr) = .jump

/-- JZ sets `pc` to `addr` exactly when the register holds 0, JNZ exactly when it does not; otherwise
they set nothing. Both are of the jump class (R152, R153). -/
def Obligations.JzJnzTestTheNamedRegister : Prop :=
  ∀ (xlen : Nat) (s : Block xlen) (reg1 addr : Int), inField xlen addr = true →
    (s.hasRegister reg1 → ∃ p : Pc xlen, p.toInt = addr ∧
      exec (.jz reg1 addr) ⟨xlen, s⟩ =
        .next ⟨xlen, if (s.reg reg1.toNat).toInt = 0 then { s with pc := p } else s⟩ ∧
      exec (.jnz reg1 addr) ⟨xlen, s⟩ =
        .next ⟨xlen, if (s.reg reg1.toNat).toInt = 0 then s else { s with pc := p }⟩) ∧
    ReportsBadRegister (.jz reg1 addr) [reg1] s ∧ ReportsBadRegister (.jnz reg1 addr) [reg1] s ∧
    dispatchClass (.jz reg1 addr) = .jump ∧ dispatchClass (.jnz reg1 addr) = .jump

/-- JE sets `pc` to `addr` exactly when the two registers are equal, JNE exactly when they differ;
otherwise they set nothing. Both are of the counted class (R154, R155). -/
def Obligations.JeJneCompareTheNamedRegisters : Prop :=
  ∀ (xlen : Nat) (s : Block xlen) (reg1 reg2 addr : Int), inField xlen addr = true →
    (s.hasRegister reg1 → s.hasRegister reg2 → ∃ p : Pc xlen, p.toInt = addr ∧
      exec (.je reg1 reg2 addr) ⟨xlen, s⟩ =
        .next ⟨xlen, if (s.reg reg1.toNat).toInt = (s.reg reg2.toNat).toInt then { s with pc := p } else s⟩ ∧
      exec (.jne reg1 reg2 addr) ⟨xlen, s⟩ =
        .next ⟨xlen, if (s.reg reg1.toNat).toInt = (s.reg reg2.toNat).toInt then s else { s with pc := p }⟩) ∧
    ReportsBadRegister (.je reg1 reg2 addr) [reg1, reg2] s ∧
    ReportsBadRegister (.jne reg1 reg2 addr) [reg1, reg2] s ∧
    dispatchClass (.je reg1 reg2 addr) = .counted ∧ dispatchClass (.jne reg1 reg2 addr) = .counted

/-- HALT ends the run normally and takes the snapshot; `pc` and `icount` keep their values (R156). -/
def Obligations.HaltEndsTheRun : Prop :=
  ∀ (xlen : Nat) (s : Block xlen),
    exec .halt ⟨xlen, s⟩ = .next ⟨xlen, { s with status := .done, snapshot := some s.takeSnapshot }⟩ ∧
    dispatchClass .halt = .halt

/-! ## Frames -/

/-- When an instruction answers a next state, every register but the one R22's table says it writes is
unchanged, and so are their number and the width. It covers every instruction and form. -/
def Obligations.OnlyTheWrittenRegisterChanges : Prop :=
  ∀ (xlen : Nat) (i : Instr) (s : Block xlen) (t : State), exec i ⟨xlen, s⟩ = .next t →
    ∃ u : Block xlen, t = ⟨xlen, u⟩ ∧ u.numRegisters = s.numRegisters ∧
    ∀ n : Nat, writtenRegister i ≠ some (n : Int) → u.reg n = s.reg n

/-- When an instruction answers a next state, every cell of memory reads as before, but the one STORE
names by `addr` and PUSH names by `sp` (R55, R58). It covers every instruction and form. -/
def Obligations.OnlyTheStoredCellChanges : Prop :=
  ∀ (xlen : Nat) (i : Instr) (s : Block xlen) (t : State), exec i ⟨xlen, s⟩ = .next t →
    ∃ u : Block xlen, t = ⟨xlen, u⟩ ∧
    ∀ a : Nat, storedCell i s ≠ some (a : Int) → u.cell a = s.cell a

/-- When an instruction answers a next state: the run inputs, `XLEN` among them, and `icount` are
unchanged; `sp` is unchanged but by PUSH and POP; `pc` is unchanged but by the five jumps; and `status`,
`err` and the snapshot are unchanged, unless the instruction raised an error, which changes `status` and `err` only,
or is HALT, which changes `status` and the snapshot (R28, R30, R32, R212). -/
def Obligations.OtherStateChangesOnlyAsNamed : Prop :=
  ∀ (xlen : Nat) (i : Instr) (s : Block xlen) (t : State), exec i ⟨xlen, s⟩ = .next t →
    ∃ u : Block xlen, t = ⟨xlen, u⟩ ∧ u.inputs = s.inputs ∧ u.icount = s.icount ∧
    ((∀ r, i ≠ .push r ∧ i ≠ .pop r) → u.sp = s.sp) ∧
    ((∀ a r q, i ≠ .jmp a ∧ i ≠ .jz r a ∧ i ≠ .jnz r a ∧ i ≠ .je r q a ∧ i ≠ .jne r q a) → u.pc = s.pc) ∧
    ((u.status = s.status ∧ u.err = s.err ∧ u.snapshot = s.snapshot) ∨
      (∃ e, u = { s with status := .failed, err := some e }) ∨
      (i = .halt ∧ u.err = s.err))

/-- An instruction reads no register but those R22's table names: changing any other register, one it
does not write either, changes its outcome in that register only. HALT is left out, because the
snapshot it takes holds every register. -/
def Obligations.OnlyTheReadRegistersMatter : Prop :=
  ∀ (xlen : Nat) (i : Instr) (s : Block xlen) (n : Nat) (v : Int), i ≠ .halt →
    (n : Int) ∉ readRegisters i → writtenRegister i ≠ some (n : Int) →
    exec i ⟨xlen, s.setReg n (BitVec.ofInt xlen v)⟩ =
      mapNext (fun m t => t.setReg n (BitVec.ofInt m v)) (exec i ⟨xlen, s⟩)

/-- No instruction can read `icount` or `MAX_INSTRUCTION_COUNT`: changing them changes an instruction's
outcome in them only (R38). -/
def Obligations.CountIsHiddenFromInstructions : Prop :=
  ∀ (xlen : Nat) (i : Instr) (s : Block xlen) (c : Int) (m : Nat),
    exec i ⟨xlen, { s with icount := BitVec.ofInt xlen c, maxInstructionCount := m }⟩ =
      mapNext (fun n t => { t with icount := BitVec.ofInt n c, maxInstructionCount := m }) (exec i ⟨xlen, s⟩)

/-! ## Errors -/

/-- On a running machine an instruction reports RegisterOutOfBounds exactly when one of the register
fields it uses is out of range, and then reports the first of them in field order; never for a field it
ignores (R201). It covers every instruction. -/
def Obligations.EveryInstructionChecksTheRegistersItUses : Prop :=
  ∀ (xlen : Nat) (i : Instr) (s : Block xlen) (r : Int), s.status = .running →
    (exec i ⟨xlen, s⟩ = .next ⟨xlen, s.fail (.registerOutOfBounds r)⟩ ↔
      firstBadRegister s (registerFields i) = some r)

/-- On a running machine an instruction raises no error but those the table of R200 gives it, each only
under its condition; the engine's own errors come from no instruction. It covers every instruction. -/
def Obligations.EachErrorHasItsInstructionAndCondition : Prop :=
  ∀ (xlen : Nat) (i : Instr) (s : Block xlen) (e : Error), s.status = .running →
    exec i ⟨xlen, s⟩ = .next ⟨xlen, s.fail e⟩ →
    (∃ r, e = .registerOutOfBounds r ∧ firstBadRegister s (registerFields i) = some r) ∨
    (∃ r a, e = .memoryAddressOutOfBounds a ∧ (i = .store r a ∨ i = .load r a) ∧ ¬ s.hasCell a) ∨
    (e = .divisionByZero ∧ ∃ a b c, i = .div a b c ∧ (s.reg b.toNat).toInt = 0) ∨
    (e = .stackOverflow ∧ ∃ r, i = .push r ∧ s.sp.toInt < 0) ∨
    (e = .stackUnderflow ∧ ∃ r, i = .pop r ∧ s.sp.toInt ≥ (s.memorySize : Int) - 1)

/-! ## The execution engine -/

/-- When the word at `pc` decodes to an instruction, a step is that instruction's own rule followed by
the update of its class: for the counted class `pc + 1` and `icount + 1` (R176), for JMP, JZ and JNZ
nothing (R175), for HALT nothing (R177). The update does not happen when the dispatch ended the run
(R174, R177). A fault of `exec` is the step's fault: `exec`'s only fault is `noSuchCell`, which is
this model's choice (log entry 8). -/
def Obligations.StepRunsTheDecodedInstruction : Prop :=
  ∀ (xlen : Nat) (s : Block xlen) (w : InstrWord xlen) (i : Instr), Fetches s w → decode w = .instr i →
    (∀ t : State, exec i ⟨xlen, s⟩ = .next t → ∃ u : Block xlen, t = ⟨xlen, u⟩ ∧
      (u.status = .running → dispatchClass i = .counted →
        step ⟨xlen, s⟩ = .next ⟨xlen, { u with pc := u.pc + 1, icount := u.icount + 1 }⟩) ∧
      (dispatchClass i = .jump → step ⟨xlen, s⟩ = .next t) ∧
      (dispatchClass i = .halt → step ⟨xlen, s⟩ = .next t) ∧
      (u.status ≠ .running → step ⟨xlen, s⟩ = .next t)) ∧
    (∀ f, exec i ⟨xlen, s⟩ = .fault f → step ⟨xlen, s⟩ = .fault f) ∧
    (dispatchClass i = .jump ↔ (∃ a, i = .jmp a) ∨ (∃ r a, i = .jz r a) ∨ (∃ r a, i = .jnz r a)) ∧
    (dispatchClass i = .halt ↔ i = .halt)

/-- The loop test comes first: a running machine with `pc >= PROGRAM_SIZE` ends its run normally and
takes the snapshot, whatever `icount` is (R171). -/
def Obligations.PointerPastProgramEndsTheRun : Prop :=
  ∀ (xlen : Nat) (s : Block xlen), s.status = .running → launchOk s.inputs = true →
    s.pc.toInt ≥ s.programSize →
    step ⟨xlen, s⟩ = .next ⟨xlen, { s with status := .done, snapshot := some s.takeSnapshot }⟩

/-- The guard comes before the fetch: a running machine raises InstructionLimitExceeded exactly when
`pc < PROGRAM_SIZE` and `icount >= MAX_INSTRUCTION_COUNT`, whatever instruction is waiting and also when
`pc < 0`; nothing else raises it (R172). -/
def Obligations.GuardRaisesBeforeTheFetch : Prop :=
  ∀ (xlen : Nat) (s : Block xlen), s.status = .running → launchOk s.inputs = true →
    (step ⟨xlen, s⟩ = .next ⟨xlen, { s with status := .failed, err := some .instructionLimitExceeded }⟩ ↔
      s.pc.toInt < s.programSize ∧ s.icount.toInt ≥ s.maxInstructionCount)

/-- A negative `pc` raises InvalidJumpTarget at the fetch, when the guard does not fire first (R173,
decision D12). -/
def Obligations.NegativePointerRaisesAtTheFetch : Prop :=
  ∀ (xlen : Nat) (s : Block xlen), s.status = .running → launchOk s.inputs = true → s.pc.toInt < 0 →
    s.icount.toInt < s.maxInstructionCount →
    step ⟨xlen, s⟩ = .next ⟨xlen, { s with status := .failed, err := some (.invalidJumpTarget s.pc.toInt) }⟩

/-- An opcode field outside 0 to 23: under the policy `fault` the step raises UnknownOpcode with the
opcode's value and changes nothing else, and under `nop` the word acts as a counted instruction that
reads and writes nothing (R79, decision D11). -/
def Obligations.UnknownOpcodeFollowsThePolicy : Prop :=
  ∀ (xlen : Nat) (s : Block xlen) (w : InstrWord xlen), Fetches s w → (fieldAt w 5 < 0 ∨ fieldAt w 5 > 23) →
    (s.unknownOpcodePolicy = .fault →
      step ⟨xlen, s⟩ = .next ⟨xlen, { s with status := .failed, err := some (.unknownOpcode (fieldAt w 5)) }⟩) ∧
    (s.unknownOpcodePolicy = .nop →
      step ⟨xlen, s⟩ = .next ⟨xlen, { s with pc := s.pc + 1, icount := s.icount + 1 }⟩)

/-- There is no step when `status` is DONE or FAILED (R170); the model stops with a fault there (log
entry 6). -/
def Obligations.NoStepAfterTheEnd : Prop :=
  ∀ (xlen : Nat) (s : Block xlen), s.status ≠ .running → step ⟨xlen, s⟩ = .fault .notRunning

/-- A machine whose run inputs break the launch preconditions of R241 is refused, at launch and at every
step of a running machine (decision D22, log entry 7). The ranges of R8 leave no launch to a width below
2 (log entry 29). -/
def Obligations.BrokenLaunchIsRefused : Prop :=
  (∀ l : Launch, (l.numRegisters = 0 ∨ l.memorySize = 0 ∨ l.maxInstructionCount = 0 ∨
      2 ^ (l.xlen - 1) ≤ l.numRegisters ∨ 2 ^ (l.xlen - 1) ≤ l.memorySize ∨
      2 ^ (l.xlen - 1) ≤ l.maxInstructionCount ∨ 2 ^ (l.xlen - 1) ≤ l.program.length ∨ l.xlen < 2) →
    launch l = .refused .launchPrecondition) ∧
  (∀ (xlen : Nat) (s : Block xlen), s.status = .running → launchOk s.inputs ≠ true →
    step ⟨xlen, s⟩ = .refused .launchPrecondition)

/-- A taken JE or JNE continues at `addr + 1` and counts; one that is not taken continues at the next
instruction and counts (R157, R176; kept by decision D14). -/
def Obligations.TakenJeJneLandsOnePastItsTarget : Prop :=
  ∀ (xlen : Nat) (s t : Block xlen) (w : InstrWord xlen) (reg1 reg2 addr : Int), Fetches s w → s.Inv →
    s.hasRegister reg1 → s.hasRegister reg2 → step ⟨xlen, s⟩ = .next ⟨xlen, t⟩ →
    (decode w = .instr (.je reg1 reg2 addr) →
      t.icount.toInt = s.icount.toInt + 1 ∧
      t.pc.toInt = (if s.reg reg1.toNat = s.reg reg2.toNat then addr else s.pc.toInt) + 1) ∧
    (decode w = .instr (.jne reg1 reg2 addr) →
      t.icount.toInt = s.icount.toInt + 1 ∧
      t.pc.toInt = (if s.reg reg1.toNat = s.reg reg2.toNat then s.pc.toInt else addr) + 1)

/-- The uncounted loops of one instruction never end: a JZ or JNZ whose condition is false, and a jump
to its own index, leave the machine as it was after any number of steps, so the guard never fires
(R158, R151, R178; the not-taken case is the spec's derivation, kept by decision D15). -/
def Obligations.UncountedSelfLoopsNeverEnd : Prop :=
  ∀ (xlen : Nat) (s : Block xlen) (w : InstrWord xlen) (reg1 addr : Int), Fetches s w → s.hasRegister reg1 →
    (decode w = .instr (.jz reg1 addr) ∧ (s.reg reg1.toNat ≠ 0 ∨ addr = s.pc.toInt) ∨
      decode w = .instr (.jnz reg1 addr) ∧ (s.reg reg1.toNat = 0 ∨ addr = s.pc.toInt) ∨
      decode w = .instr (.jmp addr) ∧ addr = s.pc.toInt) →
    ∀ k : Nat, Host.Core.run Sys2Proof.core k (State.mk xlen s) = .next (State.mk xlen s)

/-- A program with no JMP, JZ or JNZ ends its run, by a normal end or an error, within
`MAX_INSTRUCTION_COUNT - icount + 1` steps: every step that goes on is counted (R178, R180). -/
def Obligations.ProgramWithoutUncountedJumpsEnds : Prop :=
  ∀ (xlen : Nat) (s : Block xlen), s.Inv → s.status = .running →
    (∀ w ∈ s.program, ∀ i, decode w = .instr i → dispatchClass i ≠ .jump) →
    ∃ (k : Nat) (t : Block xlen), (k : Int) ≤ s.maxInstructionCount - s.icount.toInt + 1 ∧
      Host.Core.run Sys2Proof.core k (State.mk xlen s) = .next (State.mk xlen t) ∧ t.status ≠ .running

/-- `icount` rises by one exactly in the steps that complete a counted instruction (or, under the policy
`nop`, an unknown opcode), and stands still in every step that ends the run or completes a jump
(R31, R175 to R178). -/
def Obligations.OnlyCompletedCountedInstructionsCount : Prop :=
  ∀ (xlen : Nat) (s t : Block xlen), s.Inv → step ⟨xlen, s⟩ = .next ⟨xlen, t⟩ →
    (t.status = .running ∧ t.icount.toInt = s.icount.toInt + 1 ∧
      ∃ w, Fetches s w ∧ ∀ i, decode w = .instr i → dispatchClass i = .counted) ∨
    (t.status = .running ∧ t.icount = s.icount ∧
      ∃ w i, Fetches s w ∧ decode w = .instr i ∧ dispatchClass i = .jump) ∨
    (t.status ≠ .running ∧ t.icount = s.icount)

/-- A step that fails changes `status` and `err` and nothing else, and the run ends: no further step
leads on, and no snapshot is taken (R212). -/
def Obligations.FailedStepChangesOnlyStatusAndErr : Prop :=
  ∀ (xlen : Nat) (s t : Block xlen), step ⟨xlen, s⟩ = .next ⟨xlen, t⟩ → t.status = .failed →
    (∃ e, t = { s with status := .failed, err := some e }) ∧ ∀ u, step ⟨xlen, t⟩ ≠ .next u

/-- The snapshot is taken in the step that sets `status` to DONE, which changes nothing else, and at no
other time: every other step leaves the snapshot register alone, and no step follows (R190). -/
def Obligations.SnapshotIsTakenAtTheNormalEndOnly : Prop :=
  ∀ (xlen : Nat) (s t : Block xlen), step ⟨xlen, s⟩ = .next ⟨xlen, t⟩ →
    (t.status = .done → t = { s with status := .done, snapshot := some s.takeSnapshot } ∧
      ∀ u, step ⟨xlen, t⟩ ≠ .next u) ∧
    (t.status ≠ .done → t.snapshot = s.snapshot)

/-- No step changes the run inputs: the width, the number of registers, the memory size, the ceiling, the policy
and the program stay what reset latched (R32, R52). -/
def Obligations.StepKeepsTheRunInputs : Prop :=
  ∀ (xlen : Nat) (s : Block xlen) (t : State), step ⟨xlen, s⟩ = .next t →
    ∃ u : Block xlen, t = ⟨xlen, u⟩ ∧
    u.numRegisters = s.numRegisters ∧ u.memorySize = s.memorySize ∧
    u.maxInstructionCount = s.maxInstructionCount ∧ u.unknownOpcodePolicy = s.unknownOpcodePolicy ∧
    u.program = s.program

/-! ## Invariants -/

/-- Every step keeps the machine's invariant, from every state that has it. -/
def Obligations.EveryStepKeepsTheInvariant : Prop :=
  ∀ s t : State, s.Inv → step s = .next t → t.Inv

/-- The invariant holds right after reset, for every launch within the preconditions and for the model's
reset state, whose launch values are this model's choice (log entry 3). -/
def Obligations.InvariantHoldsAtReset : Prop :=
  (∀ l : Launch, launchOk l = true → (State.resetWith l).Inv) ∧ State.reset.Inv

/-- In every state a launched run can be in, the invariant holds, and a machine that is still running
takes a step: it is never stuck, refused or faulted (R170, R180). -/
def Obligations.ReachableMachineIsNeverStuck : Prop :=
  ∀ s : State, Reachable s → s.Inv ∧ (s.block.status = .running → SafeResult (step s))

/-! ## Memory, stack and registers -/

/-- A LOAD after a STORE to the same cell returns the stored register, and after a STORE to another cell
what it returned before (R62: every read returns the value of the latest write). -/
def Obligations.LoadAfterStore : Prop :=
  ∀ (xlen : Nat) (s : Block xlen) (reg1 addr reg2 addr2 : Int), Memory.wf s.memory →
    s.hasRegister reg1 → s.hasCell addr → s.hasRegister reg2 → s.hasCell addr2 →
    ∃ t u : Block xlen, exec (.store reg1 addr) ⟨xlen, s⟩ = .next ⟨xlen, t⟩ ∧
      exec (.load reg2 addr2) ⟨xlen, t⟩ = .next ⟨xlen, u⟩ ∧
      u.reg reg2.toNat = (if addr2 = addr then s.reg reg1.toNat else s.cell addr2.toNat)

/-- PUSH then POP brings the pushed value to the popped register and `sp` back to where it was, and the
cell keeps the pushed value; of two pushed values the last pushed comes back first (R123). -/
def Obligations.PushThenPopRoundTrip : Prop :=
  ∀ (xlen : Nat) (s : Block xlen) (reg1 reg2 : Int), s.Inv → s.hasRegister reg1 → s.hasRegister reg2 →
    0 ≤ s.sp.toInt →
    ∃ t u : Block xlen, exec (.push reg1) ⟨xlen, s⟩ = .next ⟨xlen, t⟩ ∧
      exec (.pop reg2) ⟨xlen, t⟩ = .next ⟨xlen, u⟩ ∧
      u.reg reg2.toNat = s.reg reg1.toNat ∧ u.sp = s.sp ∧ u.cell s.sp.toInt.toNat = s.reg reg1.toNat ∧
      ∀ reg3 reg4 : Int, s.hasRegister reg3 → s.hasRegister reg4 → 1 ≤ s.sp.toInt →
        ∃ t2 u1 u2 : Block xlen, exec (.push reg2) ⟨xlen, t⟩ = .next ⟨xlen, t2⟩ ∧
          exec (.pop reg3) ⟨xlen, t2⟩ = .next ⟨xlen, u1⟩ ∧
          exec (.pop reg4) ⟨xlen, u1⟩ = .next ⟨xlen, u2⟩ ∧ u1.reg reg3.toNat = s.reg reg2.toNat ∧
          u2.reg reg4.toNat = s.reg reg1.toNat ∧ u2.sp = s.sp

/-- Writing a register makes it read as written and leaves the others: no register is hardwired, `x[0]`
among them (R21). -/
def Obligations.EveryRegisterIsOrdinary : Prop :=
  ∀ (xlen : Nat) (s : Block xlen) (n : Nat) (v : Word xlen), n < s.numRegisters →
    (s.setReg n v).reg n = v ∧ ∀ m, m ≠ n → (s.setReg n v).reg m = s.reg m

/-- The snapshot holds all registers in order and the live stack `Mem[sp + 1]` to `Mem[MEMORY_SIZE - 1]`
in ascending address order, `MEMORY_SIZE - sp - 1` cells, the most recently pushed first (R191, R192). -/
def Obligations.SnapshotHoldsRegistersAndLiveStack : Prop :=
  ∀ (xlen : Nat) (s : Block xlen), -1 ≤ s.sp.toInt → s.sp.toInt ≤ (s.memorySize : Int) - 1 →
    s.takeSnapshot.registers.length = s.numRegisters ∧
    (∀ n : Nat, n < s.numRegisters → s.takeSnapshot.registers[n]? = some (s.reg n)) ∧
    (s.takeSnapshot.stack.length : Int) = s.memorySize - s.sp.toInt - 1 ∧
    ∀ k : Nat, (k : Int) < s.memorySize - s.sp.toInt - 1 →
      s.takeSnapshot.stack[k]? = some (s.cell (s.sp.toInt + 1 + k).toNat)

/-- `wrap_XLEN(z)` is the integer in -2^(XLEN-1) to 2^(XLEN-1) - 1 that is congruent to `z` modulo
2^XLEN (R10). -/
def Obligations.WrapIsCongruentAndInRange : Prop :=
  ∀ (xlen : Nat) (z : Int), 1 ≤ xlen →
    -2 ^ (xlen - 1) ≤ (wrap z : Word xlen).toInt ∧ (wrap z : Word xlen).toInt ≤ 2 ^ (xlen - 1) - 1 ∧
    (wrap z : Word xlen).toInt % 2 ^ xlen = z % 2 ^ xlen

/-! ## Reset and the host -/

/-- The values reset leaves, for every launch within the preconditions (R44). -/
def Obligations.ResetLeavesTheStatedValues : Prop :=
  ∀ l : Launch, launchOk l = true → ∃ s : Block l.xlen, State.resetWith l = ⟨l.xlen, s⟩ ∧
    s.numRegisters = l.numRegisters ∧ (∀ n, s.reg n = 0) ∧ (∀ a, s.cell a = 0) ∧
    s.sp.toInt = (l.memorySize : Int) - 1 ∧ s.pc.toInt = 0 ∧ s.icount.toInt = 0 ∧
    s.status = .running ∧ s.err = none ∧ s.snapshot = none ∧ s.inputs = l

/-- What the host gets back: nothing while the run goes on, the snapshot of a normal end, the code and
information of an error (R243; the signals are decision D17). -/
def Obligations.HostSeesOnlyTheResult : Prop :=
  ∀ (xlen : Nat) (s : Block xlen), s.Inv →
    (s.status = .running → hostView ⟨xlen, s⟩ = .nothingYet) ∧
    (s.status = .done → hostView ⟨xlen, s⟩ = .result s.takeSnapshot) ∧
    (s.status = .failed → ∃ e, s.err = some e ∧ hostView ⟨xlen, s⟩ = .failure (errorCode e) (errorInfo e))

/-- The codes and information of the error kinds (R200, decision D16). -/
def Obligations.ErrorCodesAndInformation : Prop :=
  ∀ z : Int,
    (errorCode (.registerOutOfBounds z) = 1 ∧ errorInfo (.registerOutOfBounds z) = some z) ∧
    (errorCode (.memoryAddressOutOfBounds z) = 2 ∧ errorInfo (.memoryAddressOutOfBounds z) = some z) ∧
    (errorCode .divisionByZero = 3 ∧ errorInfo .divisionByZero = none) ∧
    (errorCode .stackOverflow = 4 ∧ errorInfo .stackOverflow = none) ∧
    (errorCode .stackUnderflow = 5 ∧ errorInfo .stackUnderflow = none) ∧
    (errorCode .instructionLimitExceeded = 6 ∧ errorInfo .instructionLimitExceeded = none) ∧
    (errorCode .allocationFailure = 7 ∧ errorInfo .allocationFailure = none) ∧
    (errorCode (.unknownOpcode z) = 8 ∧ errorInfo (.unknownOpcode z) = some z) ∧
    (errorCode (.invalidJumpTarget z) = 9 ∧ errorInfo (.invalidJumpTarget z) = some z)

/-- This model's choice (log entry 4): a word loaded by `withFetchWord` is the one the next step
fetches, for every machine with launch inputs in range whose program has room for it. -/
def Obligations.LoadedWordIsFetchedNext : Prop :=
  ∀ (xlen : Nat) (s : Block xlen) (w : Nat), launchOk s.inputs = true →
    s.pc.toInt < Config.maxParameter xlen →
    ∃ t : Block xlen, State.withFetchWord ⟨xlen, s⟩ (6 * xlen) w = ⟨xlen, t⟩ ∧ Fetches t (BitVec.ofNat _ w)

/-! ## Encoding -/

/-- Decoding the word of a well-formed instruction gives the instruction back, with every operand at
every value its field can hold, at every width whose opcode field holds the opcode's number (R73, R76 to
R78; positions and numbers are D2 to D5). -/
def Obligations.DecodeOfEncodeIsIdentity : Prop :=
  ∀ (xlen : Nat) (i : Instr), WellFormed xlen i → inField xlen i.opcode = true →
    decode (encode xlen i) = .instr i

/-- The other direction: a word that decodes to an instruction decodes to a well-formed one, and the
instruction's word agrees with it on every bit its class uses and is 0 on the ignored bits, which the
encoder assembles as 0 (R82, decision D19). -/
def Obligations.EncodeOfDecodeKeepsTheUsedBits : Prop :=
  ∀ (xlen : Nat) (w : InstrWord xlen) (i : Instr), 1 ≤ xlen → decode w = .instr i →
    WellFormed xlen i ∧ encode xlen i = w &&& usedBits xlen i.operandClass

/-- The bits an opcode does not use are ignored: words that agree on the used bits decode alike (R71). -/
def Obligations.UnusedBitsAreIgnored : Prop :=
  ∀ (xlen : Nat) (w v : InstrWord xlen) (i : Instr), decode w = .instr i →
    v &&& usedBits xlen i.operandClass = w &&& usedBits xlen i.operandClass → decode v = .instr i

/-- As match and mask: a word is the instruction with opcode `k` exactly when its opcode field, bits
191:160 at the default width, is `k`, and decodes to "unknown opcode" exactly when its opcode field is not
in 0 to 23 (R76, R78, R79). The mask at the default width is written out. -/
def Obligations.OpcodeFieldSelectsTheInstruction : Prop :=
  (∀ (xlen : Nat) (w : InstrWord xlen),
    (∀ k : Nat, k < 24 → inField xlen k = true →
      (w &&& fieldMask xlen 5 = BitVec.ofNat _ k <<< (5 * xlen) ↔ ∃ i, decode w = .instr i ∧ i.opcode = k)) ∧
    (∀ op : Int, decode w = .unknownOpcode op ↔ fieldAt w 5 = op ∧ (op < 0 ∨ op > 23))) ∧
  fieldMask 32 5 = 0xFFFFFFFF0000000000000000000000000000000000000000#192

/-- Words of spec/95_test_vectors.md decode to the instructions they stand for, one or more for each
family, at the default width. -/
def Obligations.WrittenOutWordsDecode : Prop :=
  decode (xlen := 32) 0x000000000000000000000001000000020000000000000000#192 = .instr (.add 0 1 2) ∧
  decode (xlen := 32) 0x000000040000000200000000000000000000000000000000#192 = .instr (.store 2 0) ∧
  decode (xlen := 32) 0x000000060000000000000063FFFFFFFB0000004D0000002A#192 = .instr (.loadImmediate 0 42) ∧
  decode (xlen := 32) 0x000000080000000300000000000000000000000000000000#192 = .instr (.pop 3) ∧
  decode (xlen := 32) 0x0000000E0000000100000002000000010000000000000000#192 = .instr (.shr 1 2 1) ∧
  decode (xlen := 32) 0x000000110000000100000002000000000000000000000000#192 = .instr (.test 1 2) ∧
  decode (xlen := 32) 0x00000012000000000000000000000000FFFFFFFD00000000#192 = .instr (.jmp (-3)) ∧
  decode (xlen := 32) 0x000000160000000100000000000000000000000100000000#192 = .instr (.jne 1 0 1) ∧
  decode (xlen := 32) 0xFFFFFFFF0000000000000000000000000000000000000000#192 = .unknownOpcode (-1)
end

