-- ==== Sys2Proof/Laws/Word.lean ====
section
/-! SUPPORT. Words at any width: what a word's signed value can be, which integers a word reads back, and
the arithmetic of `sp`, `pc` and `icount`, which never wraps in range. -/

namespace Sys2Proof

variable {xlen : Nat}

/-- The signed values of a word (R10). -/
theorem toInt_bounds (w : BitVec xlen) : -2 ^ (xlen - 1) ≤ w.toInt ∧ w.toInt < 2 ^ (xlen - 1) :=
  ⟨BitVec.le_toInt w, BitVec.toInt_lt⟩

theorem two_pow_pred (h : 1 ≤ xlen) : (2 : Int) ^ xlen = 2 * 2 ^ (xlen - 1) := by
  obtain ⟨n, rfl⟩ : ∃ n, xlen = n + 1 := ⟨xlen - 1, by omega⟩
  rw [Nat.add_sub_cancel, pow_succ]
  ring

/-- An integer in a word's range is read back. -/
theorem toInt_ofInt_of_range (hx : 1 ≤ xlen) {z : Int} (h1 : -2 ^ (xlen - 1) ≤ z) (h2 : z < 2 ^ (xlen - 1)) :
    (BitVec.ofInt xlen z).toInt = z := by
  have := two_pow_pred hx
  rw [BitVec.toInt_ofInt]
  exact Int.bmod_eq_of_le (by push_cast; omega) (by push_cast; omega)

theorem inField_iff {z : Int} :
    inField xlen z = true ↔ 1 ≤ xlen ∧ -2 ^ (xlen - 1) ≤ z ∧ z ≤ 2 ^ (xlen - 1) - 1 := by simp [inField]

/-- A number that fits its field is read back from the field. -/
theorem toInt_ofInt_inField {z : Int} (h : inField xlen z = true) : (BitVec.ofInt xlen z).toInt = z := by
  obtain ⟨h0, h1, h2⟩ := inField_iff.1 h
  exact toInt_ofInt_of_range h0 h1 (by omega)

/-- A number that fits its field is read back from the wider `pc`. -/
theorem toInt_ofInt_pc {z : Int} (h : inField xlen z = true) : (BitVec.ofInt (xlen + 1) z).toInt = z := by
  obtain ⟨h0, h1, h2⟩ := inField_iff.1 h
  have := two_pow_pred h0
  refine toInt_ofInt_of_range (by omega) ?_ ?_ <;> rw [Nat.add_sub_cancel] <;> omega

/-- Every word reads as a number that fits its field. -/
theorem inField_toInt (hx : 1 ≤ xlen) (w : BitVec xlen) : inField xlen w.toInt = true := by
  have := toInt_bounds w
  exact inField_iff.2 ⟨hx, this.1, by omega⟩

theorem toInt_one (hx : 2 ≤ xlen) : (1 : BitVec xlen).toInt = 1 := BitVec.toInt_one hx

theorem ofInt_neg_one : BitVec.ofInt xlen (-1) = BitVec.allOnes xlen := by
  rw [BitVec.ofInt_neg, ← BitVec.neg_one_eq_allOnes]
  rfl

theorem toInt_neg_one (hx : 1 ≤ xlen) : (-1 : BitVec xlen).toInt = -1 := by
  show (-1#xlen).toInt = -1
  rw [BitVec.neg_one_eq_allOnes, BitVec.toInt_allOnes, if_pos (by omega)]

/-- The complement of a word is its negative minus one (R136). -/
theorem toInt_not (hx : 1 ≤ xlen) (w : BitVec xlen) : (~~~w).toInt = -w.toInt - 1 := by
  have hp := two_pow_pred hx
  have hb := toInt_bounds w
  have e : ~~~w = BitVec.ofInt xlen (-w.toInt - 1) := by
    rw [Int.sub_eq_add_neg, BitVec.ofInt_add, BitVec.ofInt_neg, BitVec.ofInt_neg, BitVec.ofInt_toInt,
      BitVec.neg_eq_not_add, add_assoc]
    simp
  rw [e]
  exact toInt_ofInt_of_range hx (by omega) (by omega)

/-- Adding one does not wrap below the largest word. -/
theorem toInt_add_one (hx : 2 ≤ xlen) {w : BitVec xlen} (h : w.toInt < 2 ^ (xlen - 1) - 1) :
    (w + 1).toInt = w.toInt + 1 := by
  have := toInt_bounds w
  have := two_pow_pred (xlen := xlen) (by omega)
  rw [BitVec.toInt_add, toInt_one hx]
  exact Int.bmod_eq_of_le (by push_cast; omega) (by push_cast; omega)

/-- Subtracting one does not wrap above the least word. -/
theorem toInt_sub_one (hx : 2 ≤ xlen) {w : BitVec xlen} (h : -2 ^ (xlen - 1) < w.toInt) :
    (w - 1).toInt = w.toInt - 1 := by
  have := toInt_bounds w
  have := two_pow_pred (xlen := xlen) (by omega)
  rw [BitVec.toInt_sub, toInt_one hx]
  exact Int.bmod_eq_of_le (by push_cast; omega) (by push_cast; omega)

theorem toInt_eq_zero {w : BitVec xlen} : w.toInt = 0 ↔ w = 0 := by
  rw [← BitVec.toInt_inj, show (0 : BitVec xlen).toInt = 0 from BitVec.toInt_zero]

/-- `2^(XLEN-1) - 1` as an integer. -/
theorem Config.maxParameter_cast : ((Config.maxParameter xlen : Nat) : Int) = 2 ^ (xlen - 1) - 1 := by
  unfold Config.maxParameter
  have := Nat.one_le_two_pow (n := xlen - 1)
  push_cast [this]
  rfl

namespace Machine

/-- The ranges a launch within the preconditions has (R241, D22); they need a width of at least 2. -/
theorem launchOk_iff {l : Launch} : launchOk l = true ↔
    2 ≤ l.xlen ∧ (1 ≤ l.numRegisters ∧ (l.numRegisters : Int) ≤ 2 ^ (l.xlen - 1) - 1) ∧
    (1 ≤ l.memorySize ∧ (l.memorySize : Int) ≤ 2 ^ (l.xlen - 1) - 1) ∧
    (1 ≤ l.maxInstructionCount ∧ (l.maxInstructionCount : Int) ≤ 2 ^ (l.xlen - 1) - 1) ∧
    (l.program.length : Int) ≤ 2 ^ (l.xlen - 1) - 1 := by
  simp only [launchOk, parameterOk, Bool.and_eq_true, decide_eq_true_eq, ← Config.maxParameter_cast,
    Int.ofNat_le, and_assoc]
  refine ⟨fun h => ⟨?_, h⟩, fun h => h.2⟩
  by_contra hx
  have : Config.maxParameter l.xlen = 0 := by
    unfold Config.maxParameter
    rw [show l.xlen - 1 = 0 by omega]
    rfl
  omega

/-- The ranges of the run inputs of a block launched within the preconditions. -/
theorem Block.ranges {s : Block xlen} (h : launchOk s.inputs = true) :
    2 ≤ xlen ∧ (1 ≤ s.numRegisters ∧ (s.numRegisters : Int) ≤ 2 ^ (xlen - 1) - 1) ∧
    (1 ≤ s.memorySize ∧ (s.memorySize : Int) ≤ 2 ^ (xlen - 1) - 1) ∧
    (1 ≤ s.maxInstructionCount ∧ (s.maxInstructionCount : Int) ≤ 2 ^ (xlen - 1) - 1) ∧
    (s.programSize : Int) ≤ 2 ^ (xlen - 1) - 1 := launchOk_iff.1 h

/-- `wrap_XLEN(z)` is congruent to `z` modulo 2^XLEN (R10). -/
theorem toInt_wrap_emod (z : Int) : (wrap z : Word xlen).toInt % 2 ^ xlen = z % 2 ^ xlen := by
  unfold wrap
  rw [BitVec.toInt_ofInt]
  have := Int.bmod_emod (x := z) (m := 2 ^ xlen)
  push_cast at this
  exact this

/-- The arithmetic shift is the quotient rounded down, at every width (R135). -/
theorem toInt_shrResult (a b : Word xlen) : (shrResult a b).toInt = a.toInt / 2 ^ shiftCount b := by
  unfold shrResult wrap
  generalize shiftCount b = n
  rw [Int.fdiv_eq_ediv_of_nonneg _ (by positivity)]
  push_cast
  rcases Nat.eq_zero_or_pos xlen with rfl | hx
  · simp [BitVec.toInt_zero_length]
  · have hp : (0 : Int) < 2 ^ n := by positivity
    have hb := toInt_bounds a
    have hm : (0 : Int) < 2 ^ (xlen - 1) := by positivity
    refine toInt_ofInt_of_range hx ?_ ?_
    · rw [Int.le_ediv_iff_mul_le hp]
      nlinarith
    · rw [Int.ediv_lt_iff_lt_mul hp]
      nlinarith

end Machine

end Sys2Proof
end

