-- ==== Sys2Proof/Laws/Decode.lean ====
section
/-! SUPPORT. The bit positions of R73 at every width: each field of a joined word is read back where it
was put. -/

namespace Sys2Proof

variable {xlen : Nat}

/-- Every field of a word reads as a number that fits it. -/
theorem inField_fieldAt (hx : 1 ≤ xlen) (w : InstrWord xlen) (k : Nat) : inField xlen (fieldAt w k) = true :=
  inField_toInt hx _

/-- The bit `i` of field `j` of a word that holds `z` in field `k` alone. -/
theorem getLsbD_placeField {j k i : Nat} (z : Int) (hj : j < 6) (hi : i < xlen) :
    (placeField xlen k z).getLsbD (j * xlen + i) = (decide (j = k) && (BitVec.ofInt xlen z).getLsbD i) := by
  unfold placeField
  have hlt : j * xlen + i < 6 * xlen := by nlinarith
  rw [BitVec.getLsbD_shiftLeft, BitVec.getLsbD_setWidth]
  rcases lt_trichotomy j k with h | rfl | h
  · have : j * xlen + i < k * xlen := by nlinarith
    simp [this, h.ne]
  · simp [hlt, show i < 6 * xlen by omega]
  · have : k * xlen + xlen ≤ j * xlen := by nlinarith
    rw [BitVec.getLsbD_of_ge _ (j * xlen + i - k * xlen) (by omega)]
    simp [h.ne']

/-- Field `j` of a word that holds `z` in field `k` alone. -/
theorem extract_placeField {j k : Nat} (z : Int) (hj : j < 6) :
    (placeField xlen k z).extractLsb' (j * xlen) xlen = if j = k then BitVec.ofInt xlen z else 0 := by
  apply BitVec.eq_of_getLsbD_eq
  intro i hi
  rw [BitVec.getLsbD_extractLsb', getLsbD_placeField z hj hi]
  by_cases h : j = k <;> simp [h, hi]

/-- Field `k` of a joined word is the field laid there. -/
theorem fieldAt_join_opcode (f : Fields) :
    fieldAt (joinFields xlen f) 5 = (BitVec.ofInt xlen f.opcode).toInt := by
  simp only [fieldAt, joinFields, BitVec.extractLsb'_or, extract_placeField _ (show 5 < 6 by decide)]
  simp

theorem fieldAt_join_reg1 (f : Fields) :
    fieldAt (joinFields xlen f) 4 = (BitVec.ofInt xlen f.reg1).toInt := by
  simp only [fieldAt, joinFields, BitVec.extractLsb'_or, extract_placeField _ (show 4 < 6 by decide)]
  simp

theorem fieldAt_join_reg2 (f : Fields) :
    fieldAt (joinFields xlen f) 3 = (BitVec.ofInt xlen f.reg2).toInt := by
  simp only [fieldAt, joinFields, BitVec.extractLsb'_or, extract_placeField _ (show 3 < 6 by decide)]
  simp

theorem fieldAt_join_reg3 (f : Fields) :
    fieldAt (joinFields xlen f) 2 = (BitVec.ofInt xlen f.reg3).toInt := by
  simp only [fieldAt, joinFields, BitVec.extractLsb'_or, extract_placeField _ (show 2 < 6 by decide)]
  simp

theorem fieldAt_join_addr (f : Fields) :
    fieldAt (joinFields xlen f) 1 = (BitVec.ofInt xlen f.addr).toInt := by
  simp only [fieldAt, joinFields, BitVec.extractLsb'_or, extract_placeField _ (show 1 < 6 by decide)]
  simp

theorem fieldAt_join_immediate (f : Fields) :
    fieldAt (joinFields xlen f) 0 = (BitVec.ofInt xlen f.immediate).toInt := by
  simp only [fieldAt, joinFields, BitVec.extractLsb'_or, extract_placeField _ (show 0 < 6 by decide)]
  simp

theorem fieldsOf_opcode (i : Instr) : (fieldsOf i).opcode = i.opcode := by cases i <;> rfl

/-- The word of an instruction carries its opcode number in the first field (R73, R78). -/
theorem fieldAt_encode_opcode {i : Instr} (h : inField xlen i.opcode = true) :
    fieldAt (encode xlen i) 5 = i.opcode := by
  rw [encode, fieldAt_join_opcode, fieldsOf_opcode, toInt_ofInt_inField h]

/-- Words whose six fields agree are the same word. -/
theorem word_ext {w v : InstrWord xlen} (h : ∀ k, k < 6 → fieldAt w k = fieldAt v k) : w = v := by
  apply BitVec.eq_of_getLsbD_eq
  intro i hi
  have hx : 0 < xlen := by omega
  have hk : i / xlen < 6 := (Nat.div_lt_iff_lt_mul hx).2 hi
  have e := congrArg (fun x : BitVec xlen => x.getLsbD (i % xlen)) (BitVec.eq_of_toInt_eq (h _ hk))
  have hm : i / xlen * xlen + i % xlen = i := Nat.div_add_mod' i xlen
  simpa [BitVec.getLsbD_extractLsb', Nat.mod_lt _ hx, hm] using e

/-- Field `k` of the bits a class uses is all ones or all zeros. -/
theorem extract_usedBits (c : OperandClass) {k : Nat} (hk : k < 6) :
    (usedBits xlen c).extractLsb' (k * xlen) xlen = if k ∈ usedFields c then BitVec.allOnes xlen else 0 := by
  unfold usedBits
  induction usedFields c with
  | nil => simp
  | cons j l ih =>
    rw [List.foldr_cons, BitVec.extractLsb'_or, ih, fieldMask, extract_placeField _ hk, ofInt_neg_one]
    by_cases h : k = j <;> by_cases hl : k ∈ l <;> simp [h, hl]

/-- A word masked to the bits a class uses keeps the fields of the class and reads 0 in the others. -/
theorem fieldAt_and_usedBits (w : InstrWord xlen) (c : OperandClass) {k : Nat} (hk : k < 6) :
    fieldAt (w &&& usedBits xlen c) k = if k ∈ usedFields c then fieldAt w k else 0 := by
  unfold fieldAt
  rw [BitVec.extractLsb'_and, extract_usedBits c hk]
  split_ifs <;> simp

end Sys2Proof
end

