-- ==== Sys2Proof/Laws/State.lean ====
section
/-! SUPPORT. One lemma per field of the block per named update, true by definition. -/

namespace Sys2Proof.Machine

variable {xlen : Nat}

/-! ## `setReg` -/

@[simp] theorem Block.setReg_regs (s : Block xlen) (i : Nat) (v : Word xlen) : (s.setReg i v).regs = s.regs.set i v := rfl
@[simp] theorem Block.setReg_memory (s : Block xlen) (i : Nat) (v : Word xlen) : (s.setReg i v).memory = s.memory := rfl
@[simp] theorem Block.setReg_sp (s : Block xlen) (i : Nat) (v : Word xlen) : (s.setReg i v).sp = s.sp := rfl
@[simp] theorem Block.setReg_pc (s : Block xlen) (i : Nat) (v : Word xlen) : (s.setReg i v).pc = s.pc := rfl
@[simp] theorem Block.setReg_icount (s : Block xlen) (i : Nat) (v : Word xlen) : (s.setReg i v).icount = s.icount := rfl
@[simp] theorem Block.setReg_status (s : Block xlen) (i : Nat) (v : Word xlen) : (s.setReg i v).status = s.status := rfl
@[simp] theorem Block.setReg_err (s : Block xlen) (i : Nat) (v : Word xlen) : (s.setReg i v).err = s.err := rfl
@[simp] theorem Block.setReg_snapshot (s : Block xlen) (i : Nat) (v : Word xlen) : (s.setReg i v).snapshot = s.snapshot := rfl
@[simp] theorem Block.setReg_memorySize (s : Block xlen) (i : Nat) (v : Word xlen) : (s.setReg i v).memorySize = s.memorySize := rfl
@[simp] theorem Block.setReg_maxInstructionCount (s : Block xlen) (i : Nat) (v : Word xlen) : (s.setReg i v).maxInstructionCount = s.maxInstructionCount := rfl
@[simp] theorem Block.setReg_unknownOpcodePolicy (s : Block xlen) (i : Nat) (v : Word xlen) : (s.setReg i v).unknownOpcodePolicy = s.unknownOpcodePolicy := rfl
@[simp] theorem Block.setReg_program (s : Block xlen) (i : Nat) (v : Word xlen) : (s.setReg i v).program = s.program := rfl

/-! ## `setCell` -/

@[simp] theorem Block.setCell_regs (s : Block xlen) (a : Nat) (v : Word xlen) : (s.setCell a v).regs = s.regs := rfl
@[simp] theorem Block.setCell_memory (s : Block xlen) (a : Nat) (v : Word xlen) : (s.setCell a v).memory = Memory.write s.memory a v := rfl
@[simp] theorem Block.setCell_sp (s : Block xlen) (a : Nat) (v : Word xlen) : (s.setCell a v).sp = s.sp := rfl
@[simp] theorem Block.setCell_pc (s : Block xlen) (a : Nat) (v : Word xlen) : (s.setCell a v).pc = s.pc := rfl
@[simp] theorem Block.setCell_icount (s : Block xlen) (a : Nat) (v : Word xlen) : (s.setCell a v).icount = s.icount := rfl
@[simp] theorem Block.setCell_status (s : Block xlen) (a : Nat) (v : Word xlen) : (s.setCell a v).status = s.status := rfl
@[simp] theorem Block.setCell_err (s : Block xlen) (a : Nat) (v : Word xlen) : (s.setCell a v).err = s.err := rfl
@[simp] theorem Block.setCell_snapshot (s : Block xlen) (a : Nat) (v : Word xlen) : (s.setCell a v).snapshot = s.snapshot := rfl
@[simp] theorem Block.setCell_memorySize (s : Block xlen) (a : Nat) (v : Word xlen) : (s.setCell a v).memorySize = s.memorySize := rfl
@[simp] theorem Block.setCell_maxInstructionCount (s : Block xlen) (a : Nat) (v : Word xlen) : (s.setCell a v).maxInstructionCount = s.maxInstructionCount := rfl
@[simp] theorem Block.setCell_unknownOpcodePolicy (s : Block xlen) (a : Nat) (v : Word xlen) : (s.setCell a v).unknownOpcodePolicy = s.unknownOpcodePolicy := rfl
@[simp] theorem Block.setCell_program (s : Block xlen) (a : Nat) (v : Word xlen) : (s.setCell a v).program = s.program := rfl

/-! ## `setSp` -/

@[simp] theorem Block.setSp_regs (s : Block xlen) (v : Word xlen) : (s.setSp v).regs = s.regs := rfl
@[simp] theorem Block.setSp_memory (s : Block xlen) (v : Word xlen) : (s.setSp v).memory = s.memory := rfl
@[simp] theorem Block.setSp_sp (s : Block xlen) (v : Word xlen) : (s.setSp v).sp = v := rfl
@[simp] theorem Block.setSp_pc (s : Block xlen) (v : Word xlen) : (s.setSp v).pc = s.pc := rfl
@[simp] theorem Block.setSp_icount (s : Block xlen) (v : Word xlen) : (s.setSp v).icount = s.icount := rfl
@[simp] theorem Block.setSp_status (s : Block xlen) (v : Word xlen) : (s.setSp v).status = s.status := rfl
@[simp] theorem Block.setSp_err (s : Block xlen) (v : Word xlen) : (s.setSp v).err = s.err := rfl
@[simp] theorem Block.setSp_snapshot (s : Block xlen) (v : Word xlen) : (s.setSp v).snapshot = s.snapshot := rfl
@[simp] theorem Block.setSp_memorySize (s : Block xlen) (v : Word xlen) : (s.setSp v).memorySize = s.memorySize := rfl
@[simp] theorem Block.setSp_maxInstructionCount (s : Block xlen) (v : Word xlen) : (s.setSp v).maxInstructionCount = s.maxInstructionCount := rfl
@[simp] theorem Block.setSp_unknownOpcodePolicy (s : Block xlen) (v : Word xlen) : (s.setSp v).unknownOpcodePolicy = s.unknownOpcodePolicy := rfl
@[simp] theorem Block.setSp_program (s : Block xlen) (v : Word xlen) : (s.setSp v).program = s.program := rfl

/-! ## `setPc` -/

@[simp] theorem Block.setPc_regs (s : Block xlen) (t : Int) : (s.setPc t).regs = s.regs := rfl
@[simp] theorem Block.setPc_memory (s : Block xlen) (t : Int) : (s.setPc t).memory = s.memory := rfl
@[simp] theorem Block.setPc_sp (s : Block xlen) (t : Int) : (s.setPc t).sp = s.sp := rfl
@[simp] theorem Block.setPc_pc (s : Block xlen) (t : Int) : (s.setPc t).pc = BitVec.ofInt (xlen + 1) t := rfl
@[simp] theorem Block.setPc_icount (s : Block xlen) (t : Int) : (s.setPc t).icount = s.icount := rfl
@[simp] theorem Block.setPc_status (s : Block xlen) (t : Int) : (s.setPc t).status = s.status := rfl
@[simp] theorem Block.setPc_err (s : Block xlen) (t : Int) : (s.setPc t).err = s.err := rfl
@[simp] theorem Block.setPc_snapshot (s : Block xlen) (t : Int) : (s.setPc t).snapshot = s.snapshot := rfl
@[simp] theorem Block.setPc_memorySize (s : Block xlen) (t : Int) : (s.setPc t).memorySize = s.memorySize := rfl
@[simp] theorem Block.setPc_maxInstructionCount (s : Block xlen) (t : Int) : (s.setPc t).maxInstructionCount = s.maxInstructionCount := rfl
@[simp] theorem Block.setPc_unknownOpcodePolicy (s : Block xlen) (t : Int) : (s.setPc t).unknownOpcodePolicy = s.unknownOpcodePolicy := rfl
@[simp] theorem Block.setPc_program (s : Block xlen) (t : Int) : (s.setPc t).program = s.program := rfl

/-! ## `fail` -/

@[simp] theorem Block.fail_regs (s : Block xlen) (e : Error) : (s.fail e).regs = s.regs := rfl
@[simp] theorem Block.fail_memory (s : Block xlen) (e : Error) : (s.fail e).memory = s.memory := rfl
@[simp] theorem Block.fail_sp (s : Block xlen) (e : Error) : (s.fail e).sp = s.sp := rfl
@[simp] theorem Block.fail_pc (s : Block xlen) (e : Error) : (s.fail e).pc = s.pc := rfl
@[simp] theorem Block.fail_icount (s : Block xlen) (e : Error) : (s.fail e).icount = s.icount := rfl
@[simp] theorem Block.fail_status (s : Block xlen) (e : Error) : (s.fail e).status = .failed := rfl
@[simp] theorem Block.fail_err (s : Block xlen) (e : Error) : (s.fail e).err = some e := rfl
@[simp] theorem Block.fail_snapshot (s : Block xlen) (e : Error) : (s.fail e).snapshot = s.snapshot := rfl
@[simp] theorem Block.fail_memorySize (s : Block xlen) (e : Error) : (s.fail e).memorySize = s.memorySize := rfl
@[simp] theorem Block.fail_maxInstructionCount (s : Block xlen) (e : Error) : (s.fail e).maxInstructionCount = s.maxInstructionCount := rfl
@[simp] theorem Block.fail_unknownOpcodePolicy (s : Block xlen) (e : Error) : (s.fail e).unknownOpcodePolicy = s.unknownOpcodePolicy := rfl
@[simp] theorem Block.fail_program (s : Block xlen) (e : Error) : (s.fail e).program = s.program := rfl

/-! ## `finish` -/

@[simp] theorem Block.finish_regs (s : Block xlen) : s.finish.regs = s.regs := rfl
@[simp] theorem Block.finish_memory (s : Block xlen) : s.finish.memory = s.memory := rfl
@[simp] theorem Block.finish_sp (s : Block xlen) : s.finish.sp = s.sp := rfl
@[simp] theorem Block.finish_pc (s : Block xlen) : s.finish.pc = s.pc := rfl
@[simp] theorem Block.finish_icount (s : Block xlen) : s.finish.icount = s.icount := rfl
@[simp] theorem Block.finish_status (s : Block xlen) : s.finish.status = .done := rfl
@[simp] theorem Block.finish_err (s : Block xlen) : s.finish.err = s.err := rfl
@[simp] theorem Block.finish_snapshot (s : Block xlen) : s.finish.snapshot = some s.takeSnapshot := rfl
@[simp] theorem Block.finish_memorySize (s : Block xlen) : s.finish.memorySize = s.memorySize := rfl
@[simp] theorem Block.finish_maxInstructionCount (s : Block xlen) : s.finish.maxInstructionCount = s.maxInstructionCount := rfl
@[simp] theorem Block.finish_unknownOpcodePolicy (s : Block xlen) : s.finish.unknownOpcodePolicy = s.unknownOpcodePolicy := rfl
@[simp] theorem Block.finish_program (s : Block xlen) : s.finish.program = s.program := rfl

/-! ## `advance` -/

@[simp] theorem Block.advance_regs (s : Block xlen) : s.advance.regs = s.regs := rfl
@[simp] theorem Block.advance_memory (s : Block xlen) : s.advance.memory = s.memory := rfl
@[simp] theorem Block.advance_sp (s : Block xlen) : s.advance.sp = s.sp := rfl
@[simp] theorem Block.advance_pc (s : Block xlen) : s.advance.pc = s.pc + 1 := rfl
@[simp] theorem Block.advance_icount (s : Block xlen) : s.advance.icount = s.icount + 1 := rfl
@[simp] theorem Block.advance_status (s : Block xlen) : s.advance.status = s.status := rfl
@[simp] theorem Block.advance_err (s : Block xlen) : s.advance.err = s.err := rfl
@[simp] theorem Block.advance_snapshot (s : Block xlen) : s.advance.snapshot = s.snapshot := rfl
@[simp] theorem Block.advance_memorySize (s : Block xlen) : s.advance.memorySize = s.memorySize := rfl
@[simp] theorem Block.advance_maxInstructionCount (s : Block xlen) : s.advance.maxInstructionCount = s.maxInstructionCount := rfl
@[simp] theorem Block.advance_unknownOpcodePolicy (s : Block xlen) : s.advance.unknownOpcodePolicy = s.unknownOpcodePolicy := rfl
@[simp] theorem Block.advance_program (s : Block xlen) : s.advance.program = s.program := rfl

/-! ## Derived reads -/

@[simp] theorem Block.setReg_cell (s : Block xlen) (i : Nat) (v : Word xlen) (a : Nat) : (s.setReg i v).cell a = s.cell a := rfl
@[simp] theorem Block.setSp_cell (s : Block xlen) (v : Word xlen) (a : Nat) : (s.setSp v).cell a = s.cell a := rfl
@[simp] theorem Block.setPc_cell (s : Block xlen) (t : Int) (a : Nat) : (s.setPc t).cell a = s.cell a := rfl
@[simp] theorem Block.fail_cell (s : Block xlen) (e : Error) (a : Nat) : (s.fail e).cell a = s.cell a := rfl
@[simp] theorem Block.finish_cell (s : Block xlen) (a : Nat) : s.finish.cell a = s.cell a := rfl
@[simp] theorem Block.advance_cell (s : Block xlen) (a : Nat) : s.advance.cell a = s.cell a := rfl
@[simp] theorem Block.setCell_reg (s : Block xlen) (a : Nat) (v : Word xlen) (i : Nat) : (s.setCell a v).reg i = s.reg i := rfl
@[simp] theorem Block.setSp_reg (s : Block xlen) (v : Word xlen) (i : Nat) : (s.setSp v).reg i = s.reg i := rfl
@[simp] theorem Block.setPc_reg (s : Block xlen) (t : Int) (i : Nat) : (s.setPc t).reg i = s.reg i := rfl
@[simp] theorem Block.fail_reg (s : Block xlen) (e : Error) (i : Nat) : (s.fail e).reg i = s.reg i := rfl
@[simp] theorem Block.finish_reg (s : Block xlen) (i : Nat) : s.finish.reg i = s.reg i := rfl
@[simp] theorem Block.advance_reg (s : Block xlen) (i : Nat) : s.advance.reg i = s.reg i := rfl
@[simp] theorem Block.setReg_numRegisters (s : Block xlen) (i : Nat) (v : Word xlen) :
    (s.setReg i v).numRegisters = s.numRegisters := List.length_set ..

/-! ## The run inputs no named update changes (R32) -/

@[simp] theorem Block.setReg_inputs (s : Block xlen) (i : Nat) (v : Word xlen) : (s.setReg i v).inputs = s.inputs := by
  simp [Block.inputs]
@[simp] theorem Block.setCell_inputs (s : Block xlen) (a : Nat) (v : Word xlen) : (s.setCell a v).inputs = s.inputs := rfl
@[simp] theorem Block.setSp_inputs (s : Block xlen) (v : Word xlen) : (s.setSp v).inputs = s.inputs := rfl
@[simp] theorem Block.setPc_inputs (s : Block xlen) (t : Int) : (s.setPc t).inputs = s.inputs := rfl
@[simp] theorem Block.fail_inputs (s : Block xlen) (e : Error) : (s.fail e).inputs = s.inputs := rfl
@[simp] theorem Block.finish_inputs (s : Block xlen) : s.finish.inputs = s.inputs := rfl
@[simp] theorem Block.advance_inputs (s : Block xlen) : s.advance.inputs = s.inputs := rfl

end Sys2Proof.Machine
end

