-- ==== Sys2Proof/Laws/Memory.lean ====
section
/-! SUPPORT. The laws of data memory and of the register file: a read after a write, and the canonical
form that every memory operation keeps. -/

namespace Sys2Proof.Machine

variable {xlen : Nat}

/-! ## Reads -/

@[simp] theorem Memory.read_nil (a : Nat) : Memory.read ([] : Memory xlen) a = Memory.unlisted := rfl

theorem Memory.read_cons (b : Nat) (w : Word xlen) (m : Memory xlen) (a : Nat) :
    Memory.read ((b, w) :: m) a = if a = b then w else Memory.read m a := rfl

/-- A cell below every listed address reads as an unlisted one. -/
theorem Memory.read_of_lt {m : Memory xlen} {a : Nat} (h : ∀ c ∈ m, a < c.1) :
    Memory.read m a = Memory.unlisted := by
  induction m with
  | nil => rfl
  | cons c m ih =>
    obtain ⟨b, w⟩ := c
    have hb : a < b := h (b, w) List.mem_cons_self
    rw [Memory.read_cons, if_neg (by omega)]
    exact ih fun c hc => h c (List.mem_cons_of_mem _ hc)

theorem Memory.read_entry {m : Memory xlen} {a : Nat} (h : ∀ c ∈ m, a < c.1) (v : Word xlen) (d : Nat) :
    Memory.read (Memory.entry a v m) d = if d = a then v else Memory.read m d := by
  unfold Memory.entry
  split_ifs with hv hd hd
  · rw [hd, hv, Memory.read_of_lt h]
  · rfl
  · rw [Memory.read_cons, if_pos hd]
  · rw [Memory.read_cons, if_neg hd]

/-- A write changes the cell written and no other (R55). -/
theorem Memory.read_write {m : Memory xlen} (h : m.Pairwise (fun c d => c.1 < d.1)) (a : Nat) (v : Word xlen) (d : Nat) :
    Memory.read (Memory.write m a v) d = if d = a then v else Memory.read m d := by
  induction m with
  | nil => exact Memory.read_entry (by simp) v d
  | cons c m ih =>
    obtain ⟨b, w⟩ := c
    obtain ⟨hlt, hm⟩ := List.pairwise_cons.1 h
    unfold Memory.write
    by_cases h1 : a < b
    · rw [if_pos h1]
      refine Memory.read_entry (fun c hc => ?_) v d
      rcases List.mem_cons.1 hc with rfl | hc
      · exact h1
      · exact Nat.lt_trans h1 (hlt c hc)
    · rw [if_neg h1]
      by_cases h2 : a = b
      · subst h2
        rw [if_pos rfl, Memory.read_entry hlt v d, Memory.read_cons]
        split_ifs <;> rfl
      · rw [if_neg h2, Memory.read_cons, ih hm, Memory.read_cons]
        split_ifs <;> first | rfl | omega

theorem Memory.read_entry_ne {m : Memory xlen} {a d : Nat} {v : Word xlen} (h : d ≠ a) :
    Memory.read (Memory.entry a v m) d = Memory.read m d := by
  unfold Memory.entry
  split_ifs
  · rfl
  · rw [Memory.read_cons, if_neg h]

/-- A write leaves every other cell alone, whatever the list's form. -/
theorem Memory.read_write_ne (m : Memory xlen) {a d : Nat} (v : Word xlen) (h : d ≠ a) :
    Memory.read (Memory.write m a v) d = Memory.read m d := by
  induction m with
  | nil => exact Memory.read_entry_ne h
  | cons c m ih =>
    obtain ⟨b, w⟩ := c
    unfold Memory.write
    split_ifs with h1 h2
    · exact Memory.read_entry_ne h
    · rw [Memory.read_entry_ne h, Memory.read_cons, if_neg (by omega)]
    · rw [Memory.read_cons, Memory.read_cons, ih]

/-! ## The canonical form -/

theorem Memory.mem_entry {m : Memory xlen} {a : Nat} {v : Word xlen} {c : Nat × Word xlen}
    (h : c ∈ Memory.entry a v m) : c = (a, v) ∧ v ≠ Memory.unlisted ∨ c ∈ m := by
  unfold Memory.entry at h
  split_ifs at h with hv
  · exact .inr h
  · rcases List.mem_cons.1 h with rfl | h
    · exact .inl ⟨rfl, hv⟩
    · exact .inr h

/-- Every entry after a write is the one written, with a value worth listing, or was there before. -/
theorem Memory.mem_write {m : Memory xlen} {a : Nat} {v : Word xlen} {c : Nat × Word xlen}
    (h : c ∈ Memory.write m a v) : c = (a, v) ∧ v ≠ Memory.unlisted ∨ c ∈ m := by
  induction m with
  | nil => exact Memory.mem_entry h
  | cons d m ih =>
    obtain ⟨b, w⟩ := d
    unfold Memory.write at h
    split_ifs at h
    · exact Memory.mem_entry h
    · exact (Memory.mem_entry h).imp_right (List.mem_cons_of_mem _)
    · rcases List.mem_cons.1 h with rfl | h
      · exact .inr List.mem_cons_self
      · exact (ih h).imp_right (List.mem_cons_of_mem _)

theorem Memory.pairwise_entry {m : Memory xlen} {a : Nat} (v : Word xlen) (h : m.Pairwise (fun c d => c.1 < d.1))
    (ha : ∀ c ∈ m, a < c.1) : (Memory.entry a v m).Pairwise (fun c d => c.1 < d.1) := by
  unfold Memory.entry
  split_ifs
  · exact h
  · exact List.pairwise_cons.2 ⟨ha, h⟩

/-- A write keeps the canonical form. -/
theorem Memory.wf_write {m : Memory xlen} (h : Memory.wf m) (a : Nat) (v : Word xlen) :
    Memory.wf (Memory.write m a v) := by
  refine ⟨?_, fun c hc => ?_⟩
  · have hp := h.1
    clear h
    induction m with
    | nil => exact Memory.pairwise_entry v .nil (by simp)
    | cons d m ih =>
      obtain ⟨b, w⟩ := d
      obtain ⟨hlt, hm⟩ := List.pairwise_cons.1 hp
      unfold Memory.write
      by_cases h1 : a < b
      · rw [if_pos h1]
        refine Memory.pairwise_entry v hp fun c hc => ?_
        rcases List.mem_cons.1 hc with rfl | hc
        · exact h1
        · exact Nat.lt_trans h1 (hlt c hc)
      · rw [if_neg h1]
        by_cases h2 : a = b
        · rw [if_pos h2]
          exact Memory.pairwise_entry v hm fun c hc => by have := hlt c hc; omega
        · rw [if_neg h2]
          refine List.pairwise_cons.2 ⟨fun c hc => ?_, ih hm⟩
          rcases Memory.mem_write hc with ⟨rfl, -⟩ | hc
          · show b < a
            omega
          · exact hlt c hc
  · rcases Memory.mem_write hc with ⟨rfl, hv⟩ | hc
    · exact hv
    · exact h.2 c hc

/-- Reset memory is in canonical form. -/
theorem Block.resetWith_memory_wf (l : Launch) : Memory.wf (Block.resetWith l).memory := ⟨.nil, by simp [Block.resetWith]⟩

theorem State.reset_memory_wf : Memory.wf State.reset.block.memory := Block.resetWith_memory_wf _

/-! ## Cells and registers of a state -/

theorem Block.cell_setCell {s : Block xlen} (h : Memory.wf s.memory) (a : Nat) (v : Word xlen) (d : Nat) :
    (s.setCell a v).cell d = if d = a then v else s.cell d := Memory.read_write h.1 a v d

theorem Block.cell_setCell_ne (s : Block xlen) {a d : Nat} (h : d ≠ a) (v : Word xlen) :
    (s.setCell a v).cell d = s.cell d := Memory.read_write_ne _ v h

/-- Writing a register changes that register and no other. -/
theorem Block.reg_setReg {s : Block xlen} {i : Nat} (h : i < s.numRegisters) (v : Word xlen) (j : Nat) :
    (s.setReg i v).reg j = if j = i then v else s.reg j := by
  unfold Block.reg Block.setReg
  by_cases hj : j = i
  · subst hj
    simp [List.getD, List.getElem?_set_self h]
  · simp [List.getD, if_neg hj, List.getElem?_set_ne (Ne.symm hj)]

theorem Block.reg_setReg_ne (s : Block xlen) {i j : Nat} (h : j ≠ i) (v : Word xlen) :
    (s.setReg i v).reg j = s.reg j := by
  simp [Block.reg, Block.setReg, List.getD, List.getElem?_set_ne (Ne.symm h)]

end Sys2Proof.Machine
end

