-- ==== Sys2Proof/Laws/Ops.lean ====
section
/-! SUPPORT. What the checks and the operand classes can do, said once: how each goes on, how each
raises, and the cases a next state can come from. -/

namespace Sys2Proof.Machine

variable {xlen : Nat}

theorem inRange_iff {z : Int} {n : Nat} : inRange z n = true ↔ 0 ≤ z ∧ z < n := by simp [inRange]

/-! ## The checks -/

theorem checkReg_of_hasRegister {s : Block xlen} {r : Int} (h : s.hasRegister r) (k : Nat → BlockResult xlen) :
    checkReg s r k = k r.toNat := if_pos (inRange_iff.2 h)

theorem checkReg_of_not {s : Block xlen} {r : Int} (h : ¬ s.hasRegister r) (k : Nat → BlockResult xlen) :
    checkReg s r k = .next (s.fail (.registerOutOfBounds r)) := if_neg fun h' => h (inRange_iff.1 h')

theorem checkAddr_of_hasCell {s : Block xlen} {a : Int} (h : s.hasCell a) (k : Nat → BlockResult xlen) :
    checkAddr s a k = k a.toNat := if_pos (inRange_iff.2 h)

theorem checkAddr_of_not {s : Block xlen} {a : Int} (h : ¬ s.hasCell a) (k : Nat → BlockResult xlen) :
    checkAddr s a k = .next (s.fail (.memoryAddressOutOfBounds a)) := if_neg fun h' => h (inRange_iff.1 h')

theorem stackCell_of_hasCell {s : Block xlen} {a : Int} (h : s.hasCell a) (k : Nat → BlockResult xlen) :
    stackCell s a k = k a.toNat := if_pos (inRange_iff.2 h)

theorem stackCell_of_not {s : Block xlen} {a : Int} (h : ¬ s.hasCell a) (k : Nat → BlockResult xlen) :
    stackCell s a k = .fault (.noSuchCell a) := if_neg fun h' => h (inRange_iff.1 h')

/-- What a register check can do. -/
theorem checkReg_next {s t : Block xlen} {r : Int} {k : Nat → BlockResult xlen} (h : checkReg s r k = .next t) :
    ¬ s.hasRegister r ∧ t = s.fail (.registerOutOfBounds r) ∨ s.hasRegister r ∧ k r.toNat = .next t := by
  by_cases hr : s.hasRegister r
  · exact .inr ⟨hr, checkReg_of_hasRegister hr k ▸ h⟩
  · rw [checkReg_of_not hr] at h
    exact .inl ⟨hr, by cases h; rfl⟩

/-- What an address check can do. -/
theorem checkAddr_next {s t : Block xlen} {a : Int} {k : Nat → BlockResult xlen} (h : checkAddr s a k = .next t) :
    ¬ s.hasCell a ∧ t = s.fail (.memoryAddressOutOfBounds a) ∨ s.hasCell a ∧ k a.toNat = .next t := by
  by_cases ha : s.hasCell a
  · exact .inr ⟨ha, checkAddr_of_hasCell ha k ▸ h⟩
  · rw [checkAddr_of_not ha] at h
    exact .inl ⟨ha, by cases h; rfl⟩

/-- A stack access that goes on names a cell. -/
theorem stackCell_next {s t : Block xlen} {a : Int} {k : Nat → BlockResult xlen} (h : stackCell s a k = .next t) :
    s.hasCell a ∧ k a.toNat = .next t := by
  by_cases ha : s.hasCell a
  · exact ⟨ha, stackCell_of_hasCell ha k ▸ h⟩
  · rw [stackCell_of_not ha] at h
    cases h

/-! ## The first bad register -/

theorem firstBadRegister_nil (s : Block xlen) : firstBadRegister s [] = none := rfl

theorem firstBadRegister_cons_ok {s : Block xlen} {r : Int} (h : s.hasRegister r) (rs : List Int) :
    firstBadRegister s (r :: rs) = firstBadRegister s rs :=
  List.find?_cons_of_neg (by simp only [decide_eq_true_eq]; omega)

theorem firstBadRegister_cons_bad {s : Block xlen} {r : Int} (h : ¬ s.hasRegister r) (rs : List Int) :
    firstBadRegister s (r :: rs) = some r :=
  List.find?_cons_of_pos (by simp only [decide_eq_true_eq]; omega)

theorem firstBadRegister_one {s : Block xlen} {a : Int} (ha : s.hasRegister a) :
    firstBadRegister s [a] = none := firstBadRegister_cons_ok ha _

theorem firstBadRegister_two {s : Block xlen} {a b : Int} (ha : s.hasRegister a) (hb : s.hasRegister b) :
    firstBadRegister s [a, b] = none := (firstBadRegister_cons_ok ha _).trans (firstBadRegister_one hb)

theorem firstBadRegister_three {s : Block xlen} {a b c : Int} (ha : s.hasRegister a) (hb : s.hasRegister b)
    (hc : s.hasRegister c) : firstBadRegister s [a, b, c] = none :=
  (firstBadRegister_cons_ok ha _).trans (firstBadRegister_two hb hc)

/-! ## The operand classes -/

/-- A register check in front of a class that raises for its first bad register makes one that does. -/
theorem checkReg_then {s : Block xlen} {r : Int} {rs : List Int} {k : Nat → BlockResult xlen} {ok : BlockResult xlen}
    (h : k r.toNat =
      match firstBadRegister s rs with
      | some q => .next (s.fail (.registerOutOfBounds q))
      | none => ok) :
    checkReg s r k =
      match firstBadRegister s (r :: rs) with
      | some q => .next (s.fail (.registerOutOfBounds q))
      | none => ok := by
  by_cases hr : s.hasRegister r
  · rw [checkReg_of_hasRegister hr, firstBadRegister_cons_ok hr, h]
  · rw [checkReg_of_not hr, firstBadRegister_cons_bad hr]

/-- Class R raises for a bad register, or goes on with it. -/
theorem operandsR_eq (s : Block xlen) (a : Int) (k : Nat → BlockResult xlen) :
    operandsR s a k =
      match firstBadRegister s [a] with
      | some r => .next (s.fail (.registerOutOfBounds r))
      | none => k a.toNat := checkReg_then rfl

/-- Class RI raises for a bad register, or goes on with it and the immediate. -/
theorem operandsRI_eq (s : Block xlen) (a v : Int) (k : Nat → Word xlen → BlockResult xlen) :
    operandsRI s a v k =
      match firstBadRegister s [a] with
      | some r => .next (s.fail (.registerOutOfBounds r))
      | none => k a.toNat (BitVec.ofInt xlen v) := checkReg_then rfl

/-- Class RR raises for the first bad register, or goes on with both. -/
theorem operandsRR_eq (s : Block xlen) (a b : Int) (k : Nat → Nat → BlockResult xlen) :
    operandsRR s a b k =
      match firstBadRegister s [a, b] with
      | some r => .next (s.fail (.registerOutOfBounds r))
      | none => k a.toNat b.toNat := checkReg_then (checkReg_then rfl)

/-- Class RRR raises for the first bad register, or goes on with all three. -/
theorem operandsRRR_eq (s : Block xlen) (a b c : Int) (k : Nat → Nat → Nat → BlockResult xlen) :
    operandsRRR s a b c k =
      match firstBadRegister s [a, b, c] with
      | some r => .next (s.fail (.registerOutOfBounds r))
      | none => k a.toNat b.toNat c.toNat := checkReg_then (checkReg_then (checkReg_then rfl))

/-- STORE's and LOAD's operands raise for the register first, then for the address. -/
theorem operandsRegCell_eq (s : Block xlen) (r a : Int) (k : Nat → Nat → BlockResult xlen) :
    operandsRegCell s r a k =
      match firstBadRegister s [r] with
      | some q => .next (s.fail (.registerOutOfBounds q))
      | none => checkAddr s a fun c => k r.toNat c := checkReg_then rfl

/-- A bad register in the list means a number that names no register. -/
theorem not_hasRegister_of_firstBad {s : Block xlen} {rs : List Int} {r : Int}
    (h : firstBadRegister s rs = some r) : ¬ s.hasRegister r := by
  have := List.find?_some h
  simp only [decide_eq_true_eq] at this
  omega

/-- No bad register in the list means that every number names a register. -/
theorem hasRegister_of_firstBad_none {s : Block xlen} {rs : List Int} (h : firstBadRegister s rs = none)
    {r : Int} (hr : r ∈ rs) : s.hasRegister r := by
  have := List.find?_eq_none.1 h r hr
  simp only [decide_eq_true_eq] at this
  omega

/-! ## The end of a run -/

/-- The snapshot of a state does not depend on its status, error or snapshot register. -/
@[simp] theorem Block.finish_takeSnapshot (s : Block xlen) : s.finish.takeSnapshot = s.takeSnapshot := rfl

@[simp] theorem afterDispatch_fail (c : DispatchClass) (s : Block xlen) (e : Error) :
    afterDispatch c (s.fail e) = s.fail e := by cases c <;> rfl

theorem afterDispatch_counted {s : Block xlen} (h : s.status = .running) :
    afterDispatch .counted s = s.advance := by simp [afterDispatch, h]

theorem afterDispatch_jump (s : Block xlen) : afterDispatch .jump s = s := by
  unfold afterDispatch
  cases s.status <;> rfl

theorem afterDispatch_halt (s : Block xlen) : afterDispatch .halt s = s := by
  unfold afterDispatch
  cases s.status <;> rfl

theorem afterDispatch_of_ended {s : Block xlen} (h : s.status ≠ .running) (c : DispatchClass) :
    afterDispatch c s = s := by
  unfold afterDispatch
  cases hs : s.status
  · exact absurd hs h
  · rfl
  · rfl

theorem unknownOpcode_fault {s : Block xlen} (h : s.unknownOpcodePolicy = .fault) (op : Int) :
    unknownOpcode op s = .next (s.fail (.unknownOpcode op)) := by simp [unknownOpcode, h, raise]

theorem unknownOpcode_nop {s : Block xlen} (h : s.unknownOpcodePolicy = .nop) (op : Int) :
    unknownOpcode op s = .next s.advance := by simp [unknownOpcode, h]

@[simp] theorem afterDispatch_finish (c : DispatchClass) (s : Block xlen) :
    afterDispatch c s.finish = s.finish := by cases c <;> rfl

end Sys2Proof.Machine
end

