-- ==== Sys2Proof/Laws/Exec.lean ====
section
/-! SUPPORT. One equation per instruction: the error of its first bad register, or its own effect. -/

namespace Sys2Proof.Machine

variable {xlen : Nat}

/-- What an outcome of the block says of an outcome of the machine. -/
theorem lift_next {r : BlockResult xlen} {t : State} (h : lift r = .next t) :
    ∃ u, r = .next u ∧ t = ⟨xlen, u⟩ := by
  cases r with
  | next u => cases h; exact ⟨u, rfl, rfl⟩
  | fault f => cases h
  | refused f => cases h

/-- The error of a first bad register passes through from the block to the machine. -/
theorem lift_operands (s : Block xlen) (o : Option Int) (k : BlockResult xlen) :
    lift (match o with
      | some q => .next (s.fail (.registerOutOfBounds q))
      | none => k) =
    match o with
      | some q => .next ⟨xlen, s.fail (.registerOutOfBounds q)⟩
      | none => lift k := by cases o <;> rfl

theorem exec_add (s : Block xlen) (a b c : Int) :
    exec (.add a b c) ⟨xlen, s⟩ =
      match firstBadRegister s [a, b, c] with
      | some q => .next ⟨xlen, s.fail (.registerOutOfBounds q)⟩
      | none => .next ⟨xlen, s.setReg c.toNat (addResult (s.reg a.toNat) (s.reg b.toNat))⟩ := by
  exact (congrArg lift (operandsRRR_eq ..)).trans (lift_operands ..)

theorem exec_sub (s : Block xlen) (a b c : Int) :
    exec (.sub a b c) ⟨xlen, s⟩ =
      match firstBadRegister s [a, b, c] with
      | some q => .next ⟨xlen, s.fail (.registerOutOfBounds q)⟩
      | none => .next ⟨xlen, s.setReg c.toNat (subResult (s.reg a.toNat) (s.reg b.toNat))⟩ := by
  exact (congrArg lift (operandsRRR_eq ..)).trans (lift_operands ..)

theorem exec_mul (s : Block xlen) (a b c : Int) :
    exec (.mul a b c) ⟨xlen, s⟩ =
      match firstBadRegister s [a, b, c] with
      | some q => .next ⟨xlen, s.fail (.registerOutOfBounds q)⟩
      | none => .next ⟨xlen, s.setReg c.toNat (mulResult (s.reg a.toNat) (s.reg b.toNat))⟩ := by
  exact (congrArg lift (operandsRRR_eq ..)).trans (lift_operands ..)

theorem exec_and (s : Block xlen) (a b c : Int) :
    exec (.and a b c) ⟨xlen, s⟩ =
      match firstBadRegister s [a, b, c] with
      | some q => .next ⟨xlen, s.fail (.registerOutOfBounds q)⟩
      | none => .next ⟨xlen, s.setReg c.toNat (andResult (s.reg a.toNat) (s.reg b.toNat))⟩ := by
  exact (congrArg lift (operandsRRR_eq ..)).trans (lift_operands ..)

theorem exec_or (s : Block xlen) (a b c : Int) :
    exec (.or a b c) ⟨xlen, s⟩ =
      match firstBadRegister s [a, b, c] with
      | some q => .next ⟨xlen, s.fail (.registerOutOfBounds q)⟩
      | none => .next ⟨xlen, s.setReg c.toNat (orResult (s.reg a.toNat) (s.reg b.toNat))⟩ := by
  exact (congrArg lift (operandsRRR_eq ..)).trans (lift_operands ..)

theorem exec_xor (s : Block xlen) (a b c : Int) :
    exec (.xor a b c) ⟨xlen, s⟩ =
      match firstBadRegister s [a, b, c] with
      | some q => .next ⟨xlen, s.fail (.registerOutOfBounds q)⟩
      | none => .next ⟨xlen, s.setReg c.toNat (xorResult (s.reg a.toNat) (s.reg b.toNat))⟩ := by
  exact (congrArg lift (operandsRRR_eq ..)).trans (lift_operands ..)

theorem exec_shl (s : Block xlen) (a b c : Int) :
    exec (.shl a b c) ⟨xlen, s⟩ =
      match firstBadRegister s [a, b, c] with
      | some q => .next ⟨xlen, s.fail (.registerOutOfBounds q)⟩
      | none => .next ⟨xlen, s.setReg c.toNat (shlResult (s.reg a.toNat) (s.reg b.toNat))⟩ := by
  exact (congrArg lift (operandsRRR_eq ..)).trans (lift_operands ..)

theorem exec_shr (s : Block xlen) (a b c : Int) :
    exec (.shr a b c) ⟨xlen, s⟩ =
      match firstBadRegister s [a, b, c] with
      | some q => .next ⟨xlen, s.fail (.registerOutOfBounds q)⟩
      | none => .next ⟨xlen, s.setReg c.toNat (shrResult (s.reg a.toNat) (s.reg b.toNat))⟩ := by
  exact (congrArg lift (operandsRRR_eq ..)).trans (lift_operands ..)

theorem exec_div (s : Block xlen) (a b c : Int) :
    exec (.div a b c) ⟨xlen, s⟩ =
      match firstBadRegister s [a, b, c] with
      | some q => .next ⟨xlen, s.fail (.registerOutOfBounds q)⟩
      | none => if s.reg b.toNat = 0 then .next ⟨xlen, s.fail .divisionByZero⟩
        else .next ⟨xlen, s.setReg c.toNat (divResult (s.reg a.toNat) (s.reg b.toNat))⟩ := by
  refine (congrArg lift (operandsRRR_eq ..)).trans ((lift_operands ..).trans ?_)
  cases firstBadRegister s _
  · exact apply_ite lift _ _ _
  · rfl

theorem exec_store (s : Block xlen) (r a : Int) :
    exec (.store r a) ⟨xlen, s⟩ =
      match firstBadRegister s [r] with
      | some q => .next ⟨xlen, s.fail (.registerOutOfBounds q)⟩
      | none => lift <| checkAddr s a fun c => .next (s.setCell c (s.reg r.toNat)) := by
  exact (congrArg lift (operandsRegCell_eq ..)).trans (lift_operands ..)

theorem exec_load (s : Block xlen) (r a : Int) :
    exec (.load r a) ⟨xlen, s⟩ =
      match firstBadRegister s [r] with
      | some q => .next ⟨xlen, s.fail (.registerOutOfBounds q)⟩
      | none => lift <| checkAddr s a fun c => .next (s.setReg r.toNat (s.cell c)) := by
  exact (congrArg lift (operandsRegCell_eq ..)).trans (lift_operands ..)

theorem exec_loadImmediate (s : Block xlen) (r v : Int) :
    exec (.loadImmediate r v) ⟨xlen, s⟩ =
      match firstBadRegister s [r] with
      | some q => .next ⟨xlen, s.fail (.registerOutOfBounds q)⟩
      | none => .next ⟨xlen, s.setReg r.toNat (BitVec.ofInt xlen v)⟩ := by
  exact (congrArg lift (operandsRI_eq ..)).trans (lift_operands ..)

theorem exec_push (s : Block xlen) (r : Int) :
    exec (.push r) ⟨xlen, s⟩ =
      match firstBadRegister s [r] with
      | some q => .next ⟨xlen, s.fail (.registerOutOfBounds q)⟩
      | none => if s.sp.toInt < 0 then .next ⟨xlen, s.fail .stackOverflow⟩
        else lift <| stackCell s s.sp.toInt fun a => .next ((s.setCell a (s.reg r.toNat)).setSp (s.sp - 1)) := by
  refine (congrArg lift (operandsR_eq ..)).trans ((lift_operands ..).trans ?_)
  cases firstBadRegister s _
  · exact apply_ite lift _ _ _
  · rfl

theorem exec_pop (s : Block xlen) (r : Int) :
    exec (.pop r) ⟨xlen, s⟩ =
      match firstBadRegister s [r] with
      | some q => .next ⟨xlen, s.fail (.registerOutOfBounds q)⟩
      | none => if s.sp.toInt ≥ (s.memorySize : Int) - 1 then .next ⟨xlen, s.fail .stackUnderflow⟩
        else lift <| stackCell s (s.sp.toInt + 1) fun a => .next ((s.setSp (s.sp + 1)).setReg r.toNat (s.cell a)) := by
  refine (congrArg lift (operandsR_eq ..)).trans ((lift_operands ..).trans ?_)
  cases firstBadRegister s _
  · exact apply_ite lift _ _ _
  · rfl

theorem exec_mov (s : Block xlen) (a b : Int) :
    exec (.mov a b) ⟨xlen, s⟩ =
      match firstBadRegister s [a, b] with
      | some q => .next ⟨xlen, s.fail (.registerOutOfBounds q)⟩
      | none => .next ⟨xlen, s.setReg a.toNat (s.reg b.toNat)⟩ := by
  exact (congrArg lift (operandsRR_eq ..)).trans (lift_operands ..)

theorem exec_not (s : Block xlen) (a b : Int) :
    exec (.not a b) ⟨xlen, s⟩ =
      match firstBadRegister s [a, b] with
      | some q => .next ⟨xlen, s.fail (.registerOutOfBounds q)⟩
      | none => .next ⟨xlen, s.setReg b.toNat (notResult (s.reg a.toNat))⟩ := by
  exact (congrArg lift (operandsRR_eq ..)).trans (lift_operands ..)

theorem exec_cmp (s : Block xlen) (a b : Int) :
    exec (.cmp a b) ⟨xlen, s⟩ =
      match firstBadRegister s [a, b] with
      | some q => .next ⟨xlen, s.fail (.registerOutOfBounds q)⟩
      | none => .next ⟨xlen, s.setReg 0 (cmpResult (s.reg a.toNat) (s.reg b.toNat))⟩ := by
  exact (congrArg lift (operandsRR_eq ..)).trans (lift_operands ..)

theorem exec_test (s : Block xlen) (a b : Int) :
    exec (.test a b) ⟨xlen, s⟩ =
      match firstBadRegister s [a, b] with
      | some q => .next ⟨xlen, s.fail (.registerOutOfBounds q)⟩
      | none => .next ⟨xlen, s.setReg 0 (testResult (s.reg a.toNat) (s.reg b.toNat))⟩ := by
  exact (congrArg lift (operandsRR_eq ..)).trans (lift_operands ..)

theorem exec_jmp (s : Block xlen) (a : Int) : exec (.jmp a) ⟨xlen, s⟩ = .next ⟨xlen, s.setPc a⟩ := rfl

theorem exec_jz (s : Block xlen) (r a : Int) :
    exec (.jz r a) ⟨xlen, s⟩ =
      match firstBadRegister s [r] with
      | some q => .next ⟨xlen, s.fail (.registerOutOfBounds q)⟩
      | none => .next ⟨xlen, if isZero (s.reg r.toNat) then s.setPc a else s⟩ := by
  exact (congrArg lift (operandsR_eq ..)).trans (lift_operands ..)

theorem exec_jnz (s : Block xlen) (r a : Int) :
    exec (.jnz r a) ⟨xlen, s⟩ =
      match firstBadRegister s [r] with
      | some q => .next ⟨xlen, s.fail (.registerOutOfBounds q)⟩
      | none => .next ⟨xlen, if !isZero (s.reg r.toNat) then s.setPc a else s⟩ := by
  exact (congrArg lift (operandsR_eq ..)).trans (lift_operands ..)

theorem exec_je (s : Block xlen) (a b t : Int) :
    exec (.je a b t) ⟨xlen, s⟩ =
      match firstBadRegister s [a, b] with
      | some q => .next ⟨xlen, s.fail (.registerOutOfBounds q)⟩
      | none => .next ⟨xlen, if isEqual (s.reg a.toNat) (s.reg b.toNat) then s.setPc t else s⟩ := by
  exact (congrArg lift (operandsRR_eq ..)).trans (lift_operands ..)

theorem exec_jne (s : Block xlen) (a b t : Int) :
    exec (.jne a b t) ⟨xlen, s⟩ =
      match firstBadRegister s [a, b] with
      | some q => .next ⟨xlen, s.fail (.registerOutOfBounds q)⟩
      | none => .next ⟨xlen, if !isEqual (s.reg a.toNat) (s.reg b.toNat) then s.setPc t else s⟩ := by
  exact (congrArg lift (operandsRR_eq ..)).trans (lift_operands ..)

theorem exec_halt (s : Block xlen) : exec .halt ⟨xlen, s⟩ = .next ⟨xlen, s.finish⟩ := rfl

/-! ## Everything an instruction can do -/

/-- The target field of a jump. -/
def jumpTarget : Instr → Option Int
  | .jmp a | .jz _ a | .jnz _ a | .je _ _ a | .jne _ _ a => some a
  | .add .. | .sub .. | .mul .. | .div .. | .and .. | .or .. | .xor .. | .shl .. | .shr .. => none
  | .store .. | .load .. | .loadImmediate .. | .push .. | .pop .. => none
  | .mov .. | .not .. | .cmp .. | .test .. | .halt => none

/-- The next blocks of an instruction's own rule. -/
inductive Effect (s : Block xlen) : Instr → Block xlen → Prop
  | raised (i : Instr) (e : Error) : Effect s i (s.fail e)
  | wrote (i : Instr) (n : Int) (v : Word xlen) (hi : ∀ r, i ≠ .pop r) (hw : writtenRegister i = some n)
      (hn : s.hasRegister n) : Effect s i (s.setReg n.toNat v)
  | stored (r a : Int) (ha : s.hasCell a) : Effect s (.store r a) (s.setCell a.toNat (s.reg r.toNat))
  | pushed (r : Int) (ha : s.hasCell s.sp.toInt) :
      Effect s (.push r) ((s.setCell s.sp.toInt.toNat (s.reg r.toNat)).setSp (s.sp - 1))
  | popped (r : Int) (hr : s.hasRegister r) (ha : s.hasCell (s.sp.toInt + 1)) :
      Effect s (.pop r) ((s.setSp (s.sp + 1)).setReg r.toNat (s.cell (s.sp.toInt + 1).toNat))
  | jumped (i : Instr) (a : Int) (hi : jumpTarget i = some a) : Effect s i (s.setPc a)
  | stayed (i : Instr) (a : Int) (hi : jumpTarget i = some a) : Effect s i s
  | halted : Effect s .halt s.finish

/-- The machine `t` has the width of the block `s`, and the instruction's rule took `s` to its block. -/
abbrev Took (s : Block xlen) (i : Instr) (t : State) : Prop := ∃ u, t = ⟨xlen, u⟩ ∧ Effect s i u

theorem took_next {s u : Block xlen} {i : Instr} {t : State} (h : (.next ⟨xlen, u⟩ : Result) = .next t)
    (e : Effect s i u) : Took s i t := by
  cases h
  exact ⟨u, rfl, e⟩

/-- Peel the error of a first bad register off an instruction's equation. -/
theorem effect_of_operands {s : Block xlen} {t : State} {i : Instr} {rs : List Int} {ok : Result}
    (h : (match firstBadRegister s rs with
      | some q => (.next ⟨xlen, s.fail (.registerOutOfBounds q)⟩ : Result)
      | none => ok) = .next t)
    (hok : (∀ r ∈ rs, s.hasRegister r) → ok = .next t → Took s i t) : Took s i t := by
  cases hf : firstBadRegister s rs with
  | some q =>
    rw [hf] at h
    exact took_next h (.raised ..)
  | none =>
    rw [hf] at h
    exact hok (fun r hr => hasRegister_of_firstBad_none hf hr) h

theorem effect_of_jump {s : Block xlen} {t : State} {i : Instr} {a : Int} {c : Bool} (hi : jumpTarget i = some a)
    (h : (.next ⟨xlen, if c then s.setPc a else s⟩ : Result) = .next t) : Took s i t := by
  cases c
  · exact took_next h (.stayed i a hi)
  · exact took_next h (.jumped i a hi)

/-- What `exec` can do: if it answers a next state, then one of these effects happened. -/
theorem exec_effect {i : Instr} {s : Block xlen} {t : State} (h : exec i ⟨xlen, s⟩ = .next t) :
    ∃ u, t = ⟨xlen, u⟩ ∧ Effect s i u := by
  cases i with
  | add a b c =>
    exact effect_of_operands (exec_add s a b c ▸ h) fun hr e =>
      took_next e <| .wrote _ c _ (by simp) rfl (hr c (by simp))
  | sub a b c =>
    exact effect_of_operands (exec_sub s a b c ▸ h) fun hr e =>
      took_next e <| .wrote _ c _ (by simp) rfl (hr c (by simp))
  | mul a b c =>
    exact effect_of_operands (exec_mul s a b c ▸ h) fun hr e =>
      took_next e <| .wrote _ c _ (by simp) rfl (hr c (by simp))
  | div a b c =>
    exact effect_of_operands (exec_div s a b c ▸ h) fun hr e => by
      split_ifs at e
      · exact took_next e (.raised ..)
      · exact took_next e (.wrote _ c _ (by simp) rfl (hr c (by simp)))
  | store r a =>
    exact effect_of_operands (exec_store s r a ▸ h) fun _ e => by
      obtain ⟨u, hu, rfl⟩ := lift_next e
      obtain ⟨-, rfl⟩ | ⟨ha, h⟩ := checkAddr_next hu
      · exact ⟨_, rfl, .raised ..⟩
      · cases h; exact ⟨_, rfl, .stored r a ha⟩
  | load r a =>
    exact effect_of_operands (exec_load s r a ▸ h) fun hr e => by
      obtain ⟨u, hu, rfl⟩ := lift_next e
      obtain ⟨-, rfl⟩ | ⟨-, h⟩ := checkAddr_next hu
      · exact ⟨_, rfl, .raised ..⟩
      · cases h; exact ⟨_, rfl, .wrote _ r _ (by simp) rfl (hr r (by simp))⟩
  | loadImmediate r v =>
    exact effect_of_operands (exec_loadImmediate s r v ▸ h) fun hr e =>
      took_next e <| .wrote _ r _ (by simp) rfl (hr r (by simp))
  | push r =>
    exact effect_of_operands (exec_push s r ▸ h) fun _ e => by
      split_ifs at e
      · exact took_next e (.raised ..)
      · obtain ⟨u, hu, rfl⟩ := lift_next e
        obtain ⟨ha, h⟩ := stackCell_next hu
        cases h; exact ⟨_, rfl, .pushed r ha⟩
  | pop r =>
    exact effect_of_operands (exec_pop s r ▸ h) fun hr e => by
      split_ifs at e
      · exact took_next e (.raised ..)
      · obtain ⟨u, hu, rfl⟩ := lift_next e
        obtain ⟨ha, h⟩ := stackCell_next hu
        cases h; exact ⟨_, rfl, .popped r (hr r (by simp)) ha⟩
  | mov a b =>
    exact effect_of_operands (exec_mov s a b ▸ h) fun hr e =>
      took_next e <| .wrote _ a _ (by simp) rfl (hr a (by simp))
  | and a b c =>
    exact effect_of_operands (exec_and s a b c ▸ h) fun hr e =>
      took_next e <| .wrote _ c _ (by simp) rfl (hr c (by simp))
  | or a b c =>
    exact effect_of_operands (exec_or s a b c ▸ h) fun hr e =>
      took_next e <| .wrote _ c _ (by simp) rfl (hr c (by simp))
  | xor a b c =>
    exact effect_of_operands (exec_xor s a b c ▸ h) fun hr e =>
      took_next e <| .wrote _ c _ (by simp) rfl (hr c (by simp))
  | shl a b c =>
    exact effect_of_operands (exec_shl s a b c ▸ h) fun hr e =>
      took_next e <| .wrote _ c _ (by simp) rfl (hr c (by simp))
  | shr a b c =>
    exact effect_of_operands (exec_shr s a b c ▸ h) fun hr e =>
      took_next e <| .wrote _ c _ (by simp) rfl (hr c (by simp))
  | not a b =>
    exact effect_of_operands (exec_not s a b ▸ h) fun hr e =>
      took_next e <| .wrote _ b _ (by simp) rfl (hr b (by simp))
  | cmp a b =>
    exact effect_of_operands (exec_cmp s a b ▸ h) fun hr e => by
      have ha : s.hasRegister a := hr a (by simp)
      exact took_next e (.wrote _ 0 _ (by simp) rfl ⟨le_rfl, lt_of_le_of_lt ha.1 ha.2⟩)
  | test a b =>
    exact effect_of_operands (exec_test s a b ▸ h) fun hr e => by
      have ha : s.hasRegister a := hr a (by simp)
      exact took_next e (.wrote _ 0 _ (by simp) rfl ⟨le_rfl, lt_of_le_of_lt ha.1 ha.2⟩)
  | jmp a => exact took_next h (.jumped _ a rfl)
  | jz r a => exact effect_of_operands (exec_jz s r a ▸ h) fun _ e => effect_of_jump rfl e
  | jnz r a => exact effect_of_operands (exec_jnz s r a ▸ h) fun _ e => effect_of_jump rfl e
  | je a b t => exact effect_of_operands (exec_je s a b t ▸ h) fun _ e => effect_of_jump rfl e
  | jne a b t => exact effect_of_operands (exec_jne s a b t ▸ h) fun _ e => effect_of_jump rfl e
  | halt => exact took_next h .halted

end Sys2Proof.Machine
end

