-- ==== Sys2Proof/Laws/Engine.lean ====
section
/-! SUPPORT. What a step can do, said once: the step of a machine that fetches, and the cases a next
state can come from. -/

namespace Sys2Proof.Machine

variable {xlen : Nat}

theorem Block.inProgram_iff {s : Block xlen} : s.inProgram = true ↔ s.pc.toInt < s.programSize := by
  simp [Block.inProgram]

theorem Block.limitReached_iff {s : Block xlen} :
    s.limitReached = true ↔ s.icount.toInt ≥ s.maxInstructionCount := by simp [Block.limitReached]

/-- A step of a running machine launched within the preconditions. -/
theorem step_running {s : Block xlen} (hs : s.status = .running) (hl : launchOk s.inputs = true) :
    step ⟨xlen, s⟩ = runningStep s := by
  simp [step, engineStep, hs, hl]

theorem runningStep_past {s : Block xlen} (h : ¬ s.pc.toInt < s.programSize) :
    runningStep s = .next ⟨xlen, s.finish⟩ := by
  have : s.inProgram = false := by simpa [Block.inProgram] using h
  simp [runningStep, this, lift]

theorem runningStep_limit {s : Block xlen} (h : s.pc.toInt < s.programSize)
    (hc : s.icount.toInt ≥ s.maxInstructionCount) :
    runningStep s = .next ⟨xlen, s.fail .instructionLimitExceeded⟩ := by
  simp [runningStep, Block.inProgram_iff.2 h, Block.limitReached_iff.2 hc, raise, lift]

theorem runningStep_negative {s : Block xlen} (h : s.pc.toInt < 0)
    (hc : ¬ s.icount.toInt ≥ s.maxInstructionCount) :
    runningStep s = .next ⟨xlen, s.fail (.invalidJumpTarget s.pc.toInt)⟩ := by
  have h1 : s.inProgram = true := Block.inProgram_iff.2 (by omega)
  have h2 : s.limitReached = false := by simpa [Block.limitReached] using hc
  simp [runningStep, h1, h2, h, raise, lift]

theorem runningStep_dispatch {s : Block xlen} (h : s.pc.toInt < s.programSize)
    (hc : ¬ s.icount.toInt ≥ s.maxInstructionCount) (h0 : ¬ s.pc.toInt < 0) :
    runningStep s = dispatchWord s.fetch s := by
  have h2 : s.limitReached = false := by simpa [Block.limitReached] using hc
  simp [runningStep, Block.inProgram_iff.2 h, h2, h0]

/-- The word a machine fetches is the one at its index. -/
theorem Fetches.fetch_eq {s : Block xlen} {w : InstrWord xlen} (h : Fetches s w) : s.fetch = w := by
  simp [Block.fetch, List.getD, h.word]

theorem Fetches.inside {s : Block xlen} {w : InstrWord xlen} (h : Fetches s w) : s.pc.toInt < s.programSize := by
  obtain ⟨hlt, -⟩ := List.getElem?_eq_some_iff.1 h.word
  have := h.index
  unfold Block.programSize
  omega

/-- A machine that fetches `w` runs `w`. -/
theorem Fetches.step_eq {s : Block xlen} {w : InstrWord xlen} (h : Fetches s w) :
    step ⟨xlen, s⟩ = dispatchWord w s := by
  rw [step_running h.running h.launched,
    runningStep_dispatch h.inside (by have := h.counted; omega) (by have := h.index; omega), h.fetch_eq]

/-- What dispatching a word can do. The width stays. -/
theorem dispatchWord_next {s : Block xlen} {t : State} {w : InstrWord xlen} (h : dispatchWord w s = .next t) :
    ∃ v : Block xlen, t = ⟨xlen, v⟩ ∧
    ((∃ i u, decode w = .instr i ∧ exec i ⟨xlen, s⟩ = .next ⟨xlen, u⟩ ∧ v = afterDispatch (dispatchClass i) u) ∨
    (∃ op, decode w = .unknownOpcode op ∧
      (s.unknownOpcodePolicy = .fault ∧ v = s.fail (.unknownOpcode op) ∨
        s.unknownOpcodePolicy = .nop ∧ v = s.advance))) := by
  unfold dispatchWord at h
  cases hd : decode w with
  | instr i =>
    rw [hd] at h
    dsimp only at h
    cases he : exec i ⟨xlen, s⟩ with
    | next v =>
      obtain ⟨u, rfl, -⟩ := exec_effect he
      rw [he] at h
      cases h
      exact ⟨_, rfl, .inl ⟨i, u, rfl, he, rfl⟩⟩
    | fault f => rw [he] at h; cases h
    | refused r => rw [he] at h; cases h
  | unknownOpcode op =>
    rw [hd] at h
    dsimp only [unknownOpcode] at h
    cases hp : s.unknownOpcodePolicy with
    | fault => rw [hp] at h; cases h; exact ⟨_, rfl, .inr ⟨op, rfl, .inl ⟨rfl, rfl⟩⟩⟩
    | nop => rw [hp] at h; cases h; exact ⟨_, rfl, .inr ⟨op, rfl, .inr ⟨rfl, rfl⟩⟩⟩

/-- What a step can do: if it answers a next state, the machine was running, and the loop test ended
the run, the guard or the fetch raised, or a word was dispatched. The width stays: `XLEN` is the same for
the whole run (log entry 29). -/
theorem step_next {s : Block xlen} {t : State} (h : step ⟨xlen, s⟩ = .next t) :
    s.status = .running ∧ launchOk s.inputs = true ∧ ∃ u : Block xlen, t = ⟨xlen, u⟩ ∧
    ((s.pc.toInt ≥ s.programSize ∧ u = s.finish) ∨
      (s.pc.toInt < s.programSize ∧ s.icount.toInt ≥ s.maxInstructionCount ∧
        u = s.fail .instructionLimitExceeded) ∨
      (s.pc.toInt < 0 ∧ s.icount.toInt < s.maxInstructionCount ∧
        u = s.fail (.invalidJumpTarget s.pc.toInt)) ∨
      (∃ w, Fetches s w ∧ dispatchWord w s = .next ⟨xlen, u⟩)) := by
  have hs : s.status = .running := by
    cases hst : s.status <;> simp [step, engineStep, hst] at h ⊢
  have hl : launchOk s.inputs = true := by
    by_contra hn
    simp [step, engineStep, hs, hn] at h
  refine ⟨hs, hl, ?_⟩
  rw [step_running hs hl] at h
  by_cases hp : s.pc.toInt < s.programSize
  · by_cases hc : s.icount.toInt ≥ s.maxInstructionCount
    · rw [runningStep_limit hp hc] at h
      cases h
      exact ⟨_, rfl, .inr (.inl ⟨hp, hc, rfl⟩)⟩
    · by_cases h0 : s.pc.toInt < 0
      · rw [runningStep_negative h0 hc] at h
        cases h
        exact ⟨_, rfl, .inr (.inr (.inl ⟨h0, by omega, rfl⟩))⟩
      · rw [runningStep_dispatch hp hc h0] at h
        have hlt : s.pc.toInt.toNat < s.program.length := by unfold Block.programSize at hp; omega
        have hw : s.program[s.pc.toInt.toNat]? = some s.fetch := by
          simp [Block.fetch, List.getD, List.getElem?_eq_getElem hlt]
        obtain ⟨u, rfl, -⟩ := dispatchWord_next h
        exact ⟨u, rfl, .inr (.inr (.inr ⟨s.fetch, ⟨hs, hl, by omega, by omega, hw⟩, h⟩))⟩
  · rw [runningStep_past hp] at h
    cases h
    exact ⟨_, rfl, .inl ⟨by omega, rfl⟩⟩

/-- A run goes on from its first step. -/
theorem core_run_succ (M : Host.Core) {s t : M.State} (h : M.step s = .next t) (k : Nat) :
    M.run (k + 1) s = M.run k t := by simp [Host.Core.run, h]

/-- The same of this machine. -/
theorem run_succ {s t : State} (h : step s = .next t) (k : Nat) :
    Host.Core.run Sys2Proof.core (k + 1) s = Host.Core.run Sys2Proof.core k t :=
  core_run_succ Sys2Proof.core h k

end Sys2Proof.Machine
end

