-- ==== Sys2Proof/Laws/PerInstr.lean ====
section
/-! SUPPORT. The family of statements made per instruction: where the encoder puts the opcode. -/

namespace Sys2Proof.Laws.OpcodeField

/-- At every width, the word of an instruction carries the row's opcode number in its first field, bits
191:160 at the default width (R73, R78). -/
def Statement (i : Instr) : Prop :=
  ∀ xlen, inField xlen i.opcode = true → fieldAt (encode xlen i) 5 = i.opcode

theorem add (a b c : Int) : Statement (.add a b c) := fun _ h => fieldAt_encode_opcode h
theorem sub (a b c : Int) : Statement (.sub a b c) := fun _ h => fieldAt_encode_opcode h
theorem mul (a b c : Int) : Statement (.mul a b c) := fun _ h => fieldAt_encode_opcode h
theorem div (a b c : Int) : Statement (.div a b c) := fun _ h => fieldAt_encode_opcode h
theorem store (r a : Int) : Statement (.store r a) := fun _ h => fieldAt_encode_opcode h
theorem load (r a : Int) : Statement (.load r a) := fun _ h => fieldAt_encode_opcode h
theorem loadImmediate (r v : Int) : Statement (.loadImmediate r v) := fun _ h => fieldAt_encode_opcode h
theorem push (r : Int) : Statement (.push r) := fun _ h => fieldAt_encode_opcode h
theorem pop (r : Int) : Statement (.pop r) := fun _ h => fieldAt_encode_opcode h
theorem mov (a b : Int) : Statement (.mov a b) := fun _ h => fieldAt_encode_opcode h
theorem and (a b c : Int) : Statement (.and a b c) := fun _ h => fieldAt_encode_opcode h
theorem or (a b c : Int) : Statement (.or a b c) := fun _ h => fieldAt_encode_opcode h
theorem xor (a b c : Int) : Statement (.xor a b c) := fun _ h => fieldAt_encode_opcode h
theorem shl (a b c : Int) : Statement (.shl a b c) := fun _ h => fieldAt_encode_opcode h
theorem shr (a b c : Int) : Statement (.shr a b c) := fun _ h => fieldAt_encode_opcode h
theorem not (a b : Int) : Statement (.not a b) := fun _ h => fieldAt_encode_opcode h
theorem cmp (a b : Int) : Statement (.cmp a b) := fun _ h => fieldAt_encode_opcode h
theorem test (a b : Int) : Statement (.test a b) := fun _ h => fieldAt_encode_opcode h
theorem jmp (a : Int) : Statement (.jmp a) := fun _ h => fieldAt_encode_opcode h
theorem jz (r a : Int) : Statement (.jz r a) := fun _ h => fieldAt_encode_opcode h
theorem jnz (r a : Int) : Statement (.jnz r a) := fun _ h => fieldAt_encode_opcode h
theorem je (a b t : Int) : Statement (.je a b t) := fun _ h => fieldAt_encode_opcode h
theorem jne (a b t : Int) : Statement (.jne a b t) := fun _ h => fieldAt_encode_opcode h
theorem halt : Statement .halt := fun _ h => fieldAt_encode_opcode h

end Sys2Proof.Laws.OpcodeField
end

