-- ==== Sys2Proof/Machine/Assembly.lean ====
section
/-! DEFINITION. The assembler's mnemonic form of an instruction (R82): the mnemonic, then only the
fields its class uses in field order. The tuple form is `fieldsOf`. -/

namespace Sys2Proof.Machine

/-- A register operand, written `r<n>`. -/
def asmReg (n : Int) : String := "r" ++ toString n

/-- The operands after a mnemonic, separated by commas. -/
def asmLine (mnemonic : String) (operands : List String) : String :=
  if operands.isEmpty then mnemonic else mnemonic ++ " " ++ String.intercalate ", " operands

/-- The mnemonic form of R82. -/
def assembly : Instr → String
  | .add a b c => asmLine "ADD" [asmReg a, asmReg b, asmReg c]
  | .sub a b c => asmLine "SUB" [asmReg a, asmReg b, asmReg c]
  | .mul a b c => asmLine "MUL" [asmReg a, asmReg b, asmReg c]
  | .div a b c => asmLine "DIV" [asmReg a, asmReg b, asmReg c]
  | .store r a => asmLine "STORE" [asmReg r, toString a]
  | .load r a => asmLine "LOAD" [asmReg r, toString a]
  | .loadImmediate r v => asmLine "LOAD_IMMEDIATE" [asmReg r, toString v]
  | .push r => asmLine "PUSH" [asmReg r]
  | .pop r => asmLine "POP" [asmReg r]
  | .mov a b => asmLine "MOV" [asmReg a, asmReg b]
  | .and a b c => asmLine "AND" [asmReg a, asmReg b, asmReg c]
  | .or a b c => asmLine "OR" [asmReg a, asmReg b, asmReg c]
  | .xor a b c => asmLine "XOR" [asmReg a, asmReg b, asmReg c]
  | .shl a b c => asmLine "SHL" [asmReg a, asmReg b, asmReg c]
  | .shr a b c => asmLine "SHR" [asmReg a, asmReg b, asmReg c]
  | .not a b => asmLine "NOT" [asmReg a, asmReg b]
  | .cmp a b => asmLine "CMP" [asmReg a, asmReg b]
  | .test a b => asmLine "TEST" [asmReg a, asmReg b]
  | .jmp a => asmLine "JMP" [toString a]
  | .jz r a => asmLine "JZ" [asmReg r, toString a]
  | .jnz r a => asmLine "JNZ" [asmReg r, toString a]
  | .je a b t => asmLine "JE" [asmReg a, asmReg b, toString t]
  | .jne a b t => asmLine "JNE" [asmReg a, asmReg b, toString t]
  | .halt => asmLine "HALT" []

end Sys2Proof.Machine
end

