-- ==== Sys2Proof/Tests/Slice0.lean ====
section
/-! SUPPORT. The model's own tests, and for every statement with hypotheses a state and operands that
meet them. Expected results are the vectors and examples of spec/95_test_vectors.md (V-…, S…, P…) and
the examples of the instruction rules; where a comment names a rule, the value is worked out from it. -/

open Sys2Proof Sys2Proof.Machine

namespace Sys2Proof.Tests

/-! ## Helpers -/

/-- A machine just reset at the width `xlen`, with `n` cells, a ceiling and these register values. -/
def machineAt (xlen n ceiling : Nat) (regs : List Int) : Block xlen :=
  { Block.resetWith ⟨xlen, regs.length, n, ceiling, .fault, []⟩ with regs := regs.map (BitVec.ofInt xlen) }

/-- The same at the default width. -/
def machine (n : Nat) (regs : List Int) : Block 32 := machineAt 32 n 1000 regs

/-- The machine at index `k` of a program of ten words, with `w` there. -/
def Block.placed {xlen : Nat} (s : Block xlen) (k : Nat) (w : InstrWord xlen) : Block xlen :=
  { s with pc := BitVec.ofNat _ k, program := (List.replicate 10 0).set k w }

/-- The next state, if there is one. -/
def Result.state? : Result → Option State
  | .next t => some t
  | .fault _ => none
  | .refused _ => none

/-- The state after one step at index 0 of a program of ten words, with `w` there. -/
def after {xlen : Nat} (w : InstrWord xlen) (s : Block xlen) : Option State :=
  Result.state? (step ⟨xlen, Block.placed s 0 w⟩)

/-- What a test looks at: the registers, `pc`, `icount`, and the error. -/
def seen (o : Option State) : Option (List Int × Int × Int × Option Error) :=
  o.map fun t => (t.block.regs.map BitVec.toInt, t.block.pc.toInt, t.block.icount.toInt, t.block.err)

/-- What a test of a storing instruction looks at: one cell, `sp`, and the error. -/
def seenCell (a : Nat) (o : Option State) : Option (Int × Int × Option Error) :=
  o.map fun t => ((t.block.cell a).toInt, t.block.sp.toInt, t.block.err)

/-- What the host sees, as integers: the snapshot of a normal end, or an error's code and information. -/
def viewed (t : State) : (List Int × List Int) ⊕ Option (Nat × Option Int) :=
  match hostView t with
  | .nothingYet => .inr none
  | .result p => .inl (p.registers.map BitVec.toInt, p.stack.map BitVec.toInt)
  | .failure code info => .inr (some (code, info))

/-! ## WellFormed refuses an operand outside its field (R72), at the default width -/

def big : Int := 2147483648
def low : Int := -2147483649

theorem test_wf_refuses_each_operand_of_rrr :
    ([.add big 0 0, .add 0 low 0, .add 0 0 big, .sub big 0 0, .sub 0 low 0, .sub 0 0 big,
      .mul big 0 0, .mul 0 low 0, .mul 0 0 big, .div big 0 0, .div 0 low 0, .div 0 0 big,
      .and big 0 0, .and 0 low 0, .and 0 0 big, .or big 0 0, .or 0 low 0, .or 0 0 big,
      .xor big 0 0, .xor 0 low 0, .xor 0 0 big, .shl big 0 0, .shl 0 low 0, .shl 0 0 big,
      .shr big 0 0, .shr 0 low 0, .shr 0 0 big] : List Instr).all (fun i => !i.wf 32) = true := by decide

theorem test_wf_refuses_each_operand_of_the_other_classes :
    ([.store low 0, .store 0 big, .load low 0, .load 0 big, .jz low 0, .jz 0 big, .jnz low 0, .jnz 0 big,
      .loadImmediate big 0, .loadImmediate 0 low, .push big, .pop low, .mov big 0, .mov 0 low,
      .not big 0, .not 0 low, .cmp big 0, .cmp 0 low, .test big 0, .test 0 low, .jmp big, .jmp low,
      .je big 0 0, .je 0 big 0, .je 0 0 big, .jne low 0 0, .jne 0 low 0, .jne 0 0 low] :
      List Instr).all (fun i => !i.wf 32) = true := by decide

theorem test_wf_admits_the_field_limits :
    ([.add 2147483647 (-2147483648) (-1), .loadImmediate 0 (-2147483648), .loadImmediate 3 2147483647,
      .jmp (-2147483648), .je 99 (-5) 2147483647, .halt] : List Instr).all (Instr.wf 32) = true := by decide

/-! ## Decoding, from words written out from R73 and R78 or taken from the programs of spec/95 -/

theorem test_decode_arithmetic :
    decode (xlen := 32) 0x000000000000000000000001000000020000000000000000#192 = .instr (.add 0 1 2) ∧
    decode (xlen := 32) 0x000000010000000100000003000000010000000000000000#192 = .instr (.sub 1 3 1) ∧
    decode (xlen := 32) 0x000000020000000300000001000000030000000000000000#192 = .instr (.mul 3 1 3) ∧
    decode (xlen := 32) 0x000000030000000100000000000000030000000000000000#192 = .instr (.div 1 0 3) := by decide

theorem test_decode_memory_access :
    decode (xlen := 32) 0x000000040000000000000000000000000000000600000000#192 = .instr (.store 0 6) ∧
    decode (xlen := 32) 0x0000000500000001000000000000000000000003FFFFFFFF#192 = .instr (.load 1 3) ∧
    decode (xlen := 32) 0x0000000600000001000000000000000000000000FFFFFFF8#192 = .instr (.loadImmediate 1 (-8)) ∧
    decode (xlen := 32) 0x000000060000000000000063FFFFFFFB0000004D0000002A#192 = .instr (.loadImmediate 0 42) := by
  decide

theorem test_decode_stack :
    decode (xlen := 32) 0x000000070000000200000000000000000000000000000000#192 = .instr (.push 2) ∧
    decode (xlen := 32) 0x000000080000000300000000000000000000000000000000#192 = .instr (.pop 3) := by decide

theorem test_decode_move_logic_shift :
    decode (xlen := 32) 0x000000090000000300000000000000000000000000000000#192 = .instr (.mov 3 0) ∧
    decode (xlen := 32) 0x0000000A0000000000000001000000020000000000000000#192 = .instr (.and 0 1 2) ∧
    decode (xlen := 32) 0x0000000B0000000000000001000000020000000000000000#192 = .instr (.or 0 1 2) ∧
    decode (xlen := 32) 0x0000000C0000000000000000FFFFFFFF0000000000000000#192 = .instr (.xor 0 0 (-1)) ∧
    decode (xlen := 32) 0x0000000D0000000000000001000000020000000000000000#192 = .instr (.shl 0 1 2) ∧
    decode (xlen := 32) 0x0000000E0000000100000002000000010000000000000000#192 = .instr (.shr 1 2 1) ∧
    decode (xlen := 32) 0x0000000F0000000100000002000000000000000000000000#192 = .instr (.not 1 2) := by decide

theorem test_decode_compare :
    decode (xlen := 32) 0x000000100000000100000002000000000000000000000000#192 = .instr (.cmp 1 2) ∧
    decode (xlen := 32) 0x000000110000000100000002000000630000000000000000#192 = .instr (.test 1 2) := by decide

theorem test_decode_control :
    decode (xlen := 32) 0x00000012000000630000006300000063FFFFFFFD00000000#192 = .instr (.jmp (-3)) ∧
    decode (xlen := 32) 0x000000130000000000000000000000000000000500000000#192 = .instr (.jz 0 5) ∧
    decode (xlen := 32) 0x000000140000000100000000000000000000000200000000#192 = .instr (.jnz 1 2) ∧
    decode (xlen := 32) 0x000000150000000000000001000000000000000400000000#192 = .instr (.je 0 1 4) ∧
    decode (xlen := 32) 0x000000160000000100000000000000000000000100000000#192 = .instr (.jne 1 0 1) ∧
    decode (xlen := 32) 0x000000170000000900000009000000090000000900000009#192 = .instr .halt := by decide

/-- V-ENC-5 and the first number past the table. -/
theorem test_decode_unknown :
    decode (xlen := 32) 0xFFFFFFFF0000000000000000000000000000000000000000#192 = .unknownOpcode (-1) ∧
    decode (xlen := 32) 0x000000180000000000000000000000000000000000000000#192 = .unknownOpcode 24 := by decide

/-- V-ENC-3, V-ENC-4, V-ENC-6, and P5's first word. -/
theorem test_encode_words :
    encode 32 (.jmp (-3)) = 0x00000012000000000000000000000000FFFFFFFD00000000#192 ∧
    encode 32 (.jne 1 0 1) = 0x000000160000000100000000000000000000000100000000#192 ∧
    encode 32 (.shr 1 2 1) = 0x0000000E0000000100000002000000010000000000000000#192 ∧
    encode 32 (.loadImmediate 1 (-8)) = 0x0000000600000001000000000000000000000000FFFFFFF8#192 := by decide

/-- The 24 `match` words of spec/opcode_table.json, every operand 0, run as the first instruction after
reset: each gives a next state. -/
theorem test_table_words_run_after_reset :
    (List.range 24).all (fun k =>
      (decodeTableWord 192 (k * 2 ^ 160)).isSome &&
      (Result.state? (step (State.reset.withFetchWord 192 (k * 2 ^ 160)))).isSome) = true := by decide

/-- The used bits of a word of each class at the default width, written out from R71, R73 and R77. -/
theorem test_used_bits :
    usedBits 32 .rrr = 0xFFFFFFFFFFFFFFFFFFFFFFFFFFFFFFFF0000000000000000#192 ∧
    usedBits 32 .rr = 0xFFFFFFFFFFFFFFFFFFFFFFFF000000000000000000000000#192 ∧
    usedBits 32 .ra = 0xFFFFFFFFFFFFFFFF0000000000000000FFFFFFFF00000000#192 ∧
    usedBits 32 .ri = 0xFFFFFFFFFFFFFFFF000000000000000000000000FFFFFFFF#192 ∧
    usedBits 32 .r = 0xFFFFFFFFFFFFFFFF00000000000000000000000000000000#192 ∧
    usedBits 32 .rra = 0xFFFFFFFFFFFFFFFFFFFFFFFF00000000FFFFFFFF00000000#192 ∧
    usedBits 32 .a = 0xFFFFFFFF000000000000000000000000FFFFFFFF00000000#192 ∧
    usedBits 32 .n = 0xFFFFFFFF0000000000000000000000000000000000000000#192 := by decide

/-! ## The width (R8, D1) -/

/-- `XLEN` is 32 unless the launch says otherwise, and a run has the width of its launch. -/
theorem test_default_width :
    ({ numRegisters := 3, memorySize := 4, maxInstructionCount := 10, program := [] } : Launch).xlen = 32 ∧
    State.reset.xlen = 32 ∧ (State.resetWith ⟨8, 3, 4, 10, .fault, []⟩).xlen = 8 := by decide

/-- R104 at `XLEN` = 8: 127 + 1 wraps to -128; the word is six fields of eight bits (R73). -/
theorem test_add_wraps_at_eight_bits :
    encode 8 (.add 1 2 3) = 0x000102030000#48 ∧
    seen (after (xlen := 8) 0x000102030000#48 (machineAt 8 8 100 [0, 127, 1, 0])) =
      some ([0, 127, 1, -128], 1, 1, none) := by decide

/-- D22 at `XLEN` = 8: 127 is the largest memory size a launch may have. -/
theorem test_launch_range_at_eight_bits : launchOk ⟨8, 1, 127, 1, .fault, []⟩ = true ∧
    launchOk ⟨8, 1, 128, 1, .fault, []⟩ = false ∧ launchOk ⟨32, 1, 128, 1, .fault, []⟩ = true := by decide

/-! ## Arithmetic -/

/-- V-ARITH-2. -/
theorem test_add_wraps : seen (after 0x000000000000000100000002000000030000000000000000#192
    (machine 8 [0, 2147483647, 1, 0])) = some ([0, 2147483647, 1, -2147483648], 1, 1, none) := by decide

/-- V-ARITH-4. -/
theorem test_add_source_is_destination : seen (after 0x000000000000000100000001000000010000000000000000#192
    (machine 8 [0, 21])) = some ([0, 42], 1, 1, none) := by decide

/-- V-ARITH-5. -/
theorem test_sub_order : seen (after 0x000000010000000100000002000000030000000000000000#192
    (machine 8 [0, 5, 8, 0])) = some ([0, 5, 8, -3], 1, 1, none) := by decide

/-- V-ARITH-7. -/
theorem test_sub_wraps : seen (after 0x000000010000000100000002000000030000000000000000#192
    (machine 8 [0, 0, -2147483648, 0])) = some ([0, 0, -2147483648, -2147483648], 1, 1, none) := by decide

/-- V-ARITH-8. -/
theorem test_mul_signed : seen (after 0x000000020000000100000002000000030000000000000000#192
    (machine 8 [0, -6, 7, 0])) = some ([0, -6, 7, -42], 1, 1, none) := by decide

/-- V-ARITH-10. -/
theorem test_mul_wraps : seen (after 0x000000020000000100000002000000030000000000000000#192
    (machine 8 [0, 46341, 46341, 0])) = some ([0, 46341, 46341, -2147479015], 1, 1, none) := by decide

/-- V-ARITH-14. -/
theorem test_div_toward_zero : seen (after 0x000000030000000100000002000000030000000000000000#192
    (machine 8 [0, -7, 2, 0])) = some ([0, -7, 2, -3], 1, 1, none) := by decide

/-- V-ARITH-12. -/
theorem test_div_by_zero : seen (after 0x000000030000000100000002000000030000000000000000#192
    (machine 8 [0, 9, 0, 77])) = some ([0, 9, 0, 77], 0, 0, some .divisionByZero) := by decide

/-! ## Memory access -/

/-- V-MEM-7. -/
theorem test_store_ignores_sp : seenCell 7 (after 0x000000040000000000000000000000000000000700000000#192
    (machine 8 [5, 0, 0, 0])) = some (5, 7, none) := by decide

/-- V-MEM-4. -/
theorem test_store_out_of_range : seenCell 7 (after 0x000000040000000000000000000000000000000800000000#192
    (machine 8 [5, 0, 0, 0])) = some (0, 7, some (.memoryAddressOutOfBounds 8)) := by decide

/-- V-MEM-2. -/
theorem test_load_reads_cell : seen (after 0x000000050000000100000000000000000000000300000000#192
    ((machine 8 [0, 0, 0, 0]).setCell 3 (BitVec.ofInt 32 (-5)))) = some ([0, -5, 0, 0], 1, 1, none) := by
  decide

/-- V-MEM-5. -/
theorem test_load_negative_address : seen (after 0x00000005000000000000000000000000FFFFFFFF00000000#192
    (machine 8 [9, 0, 0, 0])) = some ([9, 0, 0, 0], 0, 0, some (.memoryAddressOutOfBounds (-1))) := by decide

/-- V-MEM-8. -/
theorem test_load_immediate_negative : seen (after 0x0000000600000003000000000000000000000000FFFFFFFF#192
    (machine 8 [0, 0, 0, 0])) = some ([0, 0, 0, -1], 1, 1, none) := by decide

/-- V-MEM-11. -/
theorem test_load_immediate_bad_register : seen (after 0x00000006FFFFFFFF00000000000000000000000000000001#192
    (machine 8 [7, 7])) = some ([7, 7], 0, 0, some (.registerOutOfBounds (-1))) := by decide

/-! ## Stack -/

/-- V-STK-1. -/
theorem test_push_first : seenCell 3 (after 0x000000070000000100000000000000000000000000000000#192
    (machine 4 [0, 9])) = some (9, 2, none) := by decide

/-- V-STK-6. -/
theorem test_push_last_legal : seenCell 0 (after 0x000000070000000000000000000000000000000000000000#192
    ((machine 4 [6, 0]).setSp 0#32)) = some (6, -1, none) := by decide

/-- V-STK-2. -/
theorem test_pop : seenCell 3 (after 0x000000080000000000000000000000000000000000000000#192
    (((machine 4 [0, 0]).setSp 2#32).setCell 3 9#32)) = some (9, 3, none) ∧
    seen (after 0x000000080000000000000000000000000000000000000000#192
      (((machine 4 [0, 0]).setSp 2#32).setCell 3 9#32)) = some ([9, 0], 1, 1, none) := by decide

/-- V-STK-5. -/
theorem test_pop_empty : seen (after 0x000000080000000000000000000000000000000000000000#192
    (machine 4 [7, 0])) = some ([7, 0], 0, 0, some .stackUnderflow) := by decide

/-! ## Move, logic, shift -/

/-- V-LOG-1. -/
theorem test_mov_direction : seen (after 0x000000090000000300000001000000000000000000000000#192
    (machine 8 [0, 7, 0, 0])) = some ([0, 7, 0, 7], 1, 1, none) := by decide

/-- V-LOG-26. -/
theorem test_mov_first_field_first : seen (after 0x000000090000000500000004000000000000000000000000#192
    (machine 8 [0, 7, 0, 0])) = some ([0, 7, 0, 0], 0, 0, some (.registerOutOfBounds 5)) := by decide

/-- V-LOG-2. -/
theorem test_not_direction : seen (after 0x0000000F0000000100000003000000000000000000000000#192
    (machine 8 [0, 5, 0, 0])) = some ([0, 5, 0, -6], 1, 1, none) := by decide

/-- V-ERR-3. -/
theorem test_not_bad_destination : seen (after 0x0000000F0000000000000007000000000000000000000000#192
    (machine 8 [1, 2, 3, 4])) = some ([1, 2, 3, 4], 0, 0, some (.registerOutOfBounds 7)) := by decide

/-- V-LOG-5. -/
theorem test_and_bits : seen (after 0x0000000A0000000000000001000000020000000000000000#192
    (machine 8 [12, 10, 0])) = some ([12, 10, 8], 1, 1, none) := by decide

/-- V-LOG-6. -/
theorem test_and_negative : seen (after 0x0000000A0000000000000001000000020000000000000000#192
    (machine 8 [-1, -8, 0])) = some ([-1, -8, -8], 1, 1, none) := by decide

/-- V-LOG-7. -/
theorem test_or_bits : seen (after 0x0000000B0000000000000001000000020000000000000000#192
    (machine 8 [12, 10, 0])) = some ([12, 10, 14], 1, 1, none) := by decide

/-- V-LOG-8. -/
theorem test_or_all_ones : seen (after 0x0000000B0000000000000001000000020000000000000000#192
    (machine 8 [-2147483648, 2147483647, 0])) = some ([-2147483648, 2147483647, -1], 1, 1, none) := by decide

/-- V-LOG-10. -/
theorem test_xor_negative : seen (after 0x0000000C0000000000000001000000020000000000000000#192
    (machine 8 [-1, 5, 0])) = some ([-1, 5, -6], 1, 1, none) := by decide

/-- V-ERR-2. -/
theorem test_xor_bad_destination : seen (after 0x0000000C0000000000000000FFFFFFFF0000000000000000#192
    (machine 8 [1, 2, 3, 4])) = some ([1, 2, 3, 4], 0, 0, some (.registerOutOfBounds (-1))) := by decide

/-- V-LOG-15. -/
theorem test_shl_negative_count : seen (after 0x0000000D0000000000000001000000020000000000000000#192
    (machine 8 [1, -1, 0])) = some ([1, -1, -2147483648], 1, 1, none) := by decide

/-- V-LOG-14. -/
theorem test_shl_count_32 : seen (after 0x0000000D0000000000000001000000020000000000000000#192
    (machine 8 [1, 32, 0])) = some ([1, 32, 1], 1, 1, none) := by decide

/-- V-LOG-20. -/
theorem test_shr_rounds_down : seen (after 0x0000000E0000000000000001000000020000000000000000#192
    (machine 8 [-7, 1, 0])) = some ([-7, 1, -4], 1, 1, none) := by decide

/-- V-LOG-23. -/
theorem test_shr_count_33 : seen (after 0x0000000E0000000000000001000000020000000000000000#192
    (machine 8 [16, 33, 0])) = some ([16, 33, 8], 1, 1, none) := by decide

/-! ## Compare -/

/-- V-CMP-4. -/
theorem test_cmp_exact : seen (after 0x000000100000000100000002000000000000000000000000#192
    (machine 8 [55, -2147483648, 1, 0])) = some ([-1, -2147483648, 1, 0], 1, 1, none) := by decide

/-- V-CMP-6. -/
theorem test_cmp_reads_old_zero : seen (after 0x000000100000000000000001000000000000000000000000#192
    (machine 8 [9, 2, 0, 0])) = some ([1, 2, 0, 0], 1, 1, none) := by decide

/-- V-CMP-9. -/
theorem test_test_value : seen (after 0x000000110000000100000002000000000000000000000000#192
    (machine 8 [0, -1, -8, 0])) = some ([-8, -1, -8, 0], 1, 1, none) := by decide

/-- V-CMP-12. -/
theorem test_test_ignores_reg3 : seen (after 0x000000110000000100000002000000630000000000000000#192
    (machine 8 [0, 1, 1, 0])) = some ([1, 1, 1, 0], 1, 1, none) := by decide

/-! ## Control -/

/-- V-CTL-17. -/
theorem test_jmp_ignores_registers : seen (Result.state? (step ⟨32, Block.placed (machine 8 [0, 0, 0, 0]) 0
    0x000000120000006300000063000000630000000200000000#192⟩)) = some ([0, 0, 0, 0], 2, 0, none) := by decide

/-- V-CTL-3, its first step. -/
theorem test_jmp_negative : seen (Result.state? (step ⟨32, Block.placed (machine 8 [0, 0]) 0
    0x00000012000000000000000000000000FFFFFFFD00000000#192⟩)) = some ([0, 0], -3, 0, none) := by decide

/-- V-CTL-4. -/
theorem test_jz_taken : seen (Result.state? (step ⟨32, Block.placed (machine 8 [0, 0, 0]) 5
    0x000000130000000200000000000000000000000900000000#192⟩)) = some ([0, 0, 0], 9, 0, none) := by decide

/-- V-CTL-5. -/
theorem test_jz_not_taken_stays : seen (Result.state? (step ⟨32, Block.placed (machine 8 [0, 0, 1]) 5
    0x000000130000000200000000000000000000000900000000#192⟩)) = some ([0, 0, 1], 5, 0, none) := by decide

/-- V-CTL-6. -/
theorem test_jnz_taken : seen (Result.state? (step ⟨32, Block.placed (machine 8 [0, 4]) 3
    0x000000140000000100000000000000000000000100000000#192⟩)) = some ([0, 4], 1, 0, none) := by decide

/-- V-CTL-7. -/
theorem test_jnz_not_taken_stays : seen (Result.state? (step ⟨32, Block.placed (machine 8 [0, 0]) 3
    0x000000140000000100000000000000000000000100000000#192⟩)) = some ([0, 0], 3, 0, none) := by decide

/-- V-CTL-8 and S9. -/
theorem test_je_lands_one_past : seen (Result.state? (step ⟨32, Block.placed (machine 8 [0, 0]) 0
    0x000000150000000000000001000000000000000400000000#192⟩)) = some ([0, 0], 5, 1, none) := by decide

/-- V-CTL-15. -/
theorem test_je_largest_target : seen (Result.state? (step ⟨32, Block.placed (machine 8 [0, 0]) 0
    0x000000150000000000000000000000007FFFFFFF00000000#192⟩)) = some ([0, 0], 2147483648, 1, none) := by decide

/-- V-CTL-10. -/
theorem test_jne_taken : seen (Result.state? (step ⟨32, Block.placed (machine 8 [1, 2]) 2
    0x000000160000000000000001000000000000000600000000#192⟩)) = some ([1, 2], 7, 1, none) := by decide

/-- V-CTL-11. -/
theorem test_jne_not_taken : seen (Result.state? (step ⟨32, Block.placed (machine 8 [0, 3]) 2
    0x000000160000000100000001000000000000000600000000#192⟩)) = some ([0, 3], 3, 1, none) := by decide

/-- V-ERR-6 and V-CTL-18: HALT uses no field, ends the run, moves nothing, and the snapshot is taken. -/
theorem test_halt :
    let t := Result.state? (step ⟨32, Block.placed (machine 4 [10, 20, 30]) 4
      0x000000170000000900000009000000090000000900000009#192⟩)
    seen t = some ([10, 20, 30], 4, 0, none) ∧ t.map viewed = some (.inl ([10, 20, 30], [])) := by decide

/-! ## Engine, snapshot, host -/

/-- V-ENG-1: with no program the first step ends the run normally. -/
theorem test_empty_program : (Result.state? (step State.reset)).map viewed =
    some (.inl ([0, 0, 0], [])) := by decide

/-- V-ENG-10: the guard comes before the fetch. -/
theorem test_guard_before_fetch : seen (Result.state? (step ⟨32, { machine 4 [0] with
    pc := BitVec.ofInt 33 (-3), icount := 1000#32 }⟩)) =
    some ([0], -3, 1000, some .instructionLimitExceeded) := by decide

/-- V-CTL-3, its second step: the error's code and information. -/
theorem test_negative_fetch : (Result.state? (step ⟨32, { machine 4 [0] with pc := BitVec.ofInt 33 (-3) }⟩)).map
    viewed = some (.inr (some (9, some (-3)))) := by decide

/-- V-ENG-8. -/
theorem test_unknown_opcode_fault : seen (after 0x000000180000000000000000000000000000000000000000#192
    (machine 4 [0])) = some ([0], 0, 0, some (.unknownOpcode 24)) := by decide

/-- V-ENG-9, its second word. -/
theorem test_unknown_opcode_nop : seen (after 0xFFFFFFFF0000000000000000000000000000000000000000#192
    { machine 4 [0] with unknownOpcodePolicy := .nop }) = some ([0], 1, 1, none) := by decide

/-- V-SNAP-2 and V-SNAP-3: the live stack from `sp + 1` up, the last value pushed first. -/
theorem test_snapshot_order :
    (((((machine 4 [0]).setCell 0 1#32).setCell 1 2#32).setCell 2 3#32).setCell 3 4#32
      |>.setSp (BitVec.ofInt 32 (-1))).takeSnapshot.stack = [1#32, 2#32, 3#32, 4#32] ∧
    (((machine 4 [0]).setCell 2 22#32).setCell 3 11#32 |>.setSp 1#32).takeSnapshot.stack = [22#32, 11#32] := by
  decide

/-- R82's examples and R83's spellings. -/
theorem test_assembly : assembly (.add 0 1 2) = "ADD r0, r1, r2" ∧ assembly (.mov 3 1) = "MOV r3, r1" ∧
    assembly (.store 2 0) = "STORE r2, 0" ∧ assembly (.loadImmediate 0 10) = "LOAD_IMMEDIATE r0, 10" ∧
    assembly (.push 1) = "PUSH r1" ∧ assembly (.je 0 1 4) = "JE r0, r1, 4" ∧
    assembly (.jmp 0) = "JMP 0" ∧ assembly .halt = "HALT" := by decide

/-! ## Witnesses: a state and operands that meet the hypotheses of each statement

Registers are taken at both ends of their range, addresses and `sp` at the ends of theirs. -/

/-- Four registers, eight cells. -/
def m4 : Block 32 := machine 8 [3, 0, -7, 5]

theorem witness_AddWritesWrappedSum : (m4.hasRegister 0 ∧ m4.hasRegister 3 ∧ m4.hasRegister 1) ∧
    firstBadRegister m4 [0, 4, -1] = some 4 ∧ firstBadRegister m4 [0, 3, -1] = some (-1) := by decide

theorem witness_SubWritesWrappedDifference : (m4.hasRegister 3 ∧ m4.hasRegister 0 ∧ m4.hasRegister 2) ∧
    firstBadRegister m4 [-1, 4, 0] = some (-1) := by decide

theorem witness_MulWritesWrappedProduct : (m4.hasRegister 3 ∧ m4.hasRegister 2 ∧ m4.hasRegister 0) ∧
    firstBadRegister m4 [2147483647, 0, 0] = some 2147483647 := by decide

theorem witness_DivWritesQuotientTowardZero :
    (m4.hasRegister 2 ∧ m4.hasRegister 0 ∧ m4.hasRegister 3 ∧ (m4.reg 0).toInt ≠ 0) ∧
    (m4.hasRegister 2 ∧ m4.hasRegister 1 ∧ m4.hasRegister 3 ∧ (m4.reg 1).toInt = 0) ∧
    firstBadRegister m4 [2, 1, 4] = some 4 := by decide

theorem witness_DivEdgeResults : 4 ≤ 4 ∧ 4 ≤ 32 ∧ (BitVec.ofInt 32 (-2147483648)).toInt ≠ 0 ∧
    (BitVec.ofInt 32 (-2147483647)).toInt ≠ -2147483648 := by decide

theorem witness_StoreWritesItsCell : (m4.hasRegister 3 ∧ m4.hasCell 0) ∧ (m4.hasRegister 0 ∧ m4.hasCell 7) ∧
    (m4.hasRegister 0 ∧ ¬ m4.hasCell 8) ∧ (m4.hasRegister 0 ∧ ¬ m4.hasCell (-1)) ∧
    firstBadRegister m4 [4] = some 4 := by decide

theorem witness_LoadReadsItsCell : (m4.hasRegister 0 ∧ m4.hasCell 7) ∧ (m4.hasRegister 3 ∧ m4.hasCell 0) ∧
    (m4.hasRegister 0 ∧ ¬ m4.hasCell (-1)) ∧ (m4.hasRegister 0 ∧ ¬ m4.hasCell 8) ∧
    firstBadRegister m4 [-1] = some (-1) := by decide

theorem witness_LoadImmediateCopiesItsField :
    (inField 32 (-2147483648) = true ∧ m4.hasRegister 0) ∧ (inField 32 2147483647 = true ∧ m4.hasRegister 3) ∧
    firstBadRegister m4 [4] = some 4 := by decide

theorem witness_PushStoresThenDecrements : 2 ≤ 32 ∧ (m4.hasRegister 0 ∧ m4.hasCell m4.sp.toInt) ∧
    (m4.hasRegister 3 ∧ m4.hasCell (m4.setSp 0#32).sp.toInt) ∧
    (m4.hasRegister 0 ∧ (m4.setSp (BitVec.ofInt 32 (-1))).sp.toInt < 0) ∧
    firstBadRegister m4 [4] = some 4 := by decide

/-- The last legal POP is at `sp = MEMORY_SIZE - 2`, the first refused one at `MEMORY_SIZE - 1`. -/
theorem witness_PopIncrementsThenLoads :
    ([BitVec.ofInt 32 (-1), 6#32] : List (Word 32)).all (fun v => let s := m4.setSp v
      decide (s.hasRegister 0 ∧ -1 ≤ s.sp.toInt ∧ s.sp.toInt < (s.memorySize : Int) - 1 ∧
        s.memorySize ≤ Config.maxParameter 32)) = true ∧
    (m4.hasRegister 3 ∧ m4.sp.toInt ≥ (m4.memorySize : Int) - 1) ∧
    firstBadRegister m4 [-1] = some (-1) := by decide

theorem witness_StackAccessOutsideMemoryFaults :
    ((m4.setSp 8#32).hasRegister 0 ∧ (m4.setSp 8#32).sp.toInt ≥ (m4.setSp 8#32).memorySize) ∧
    ((m4.setSp (BitVec.ofInt 32 (-2))).hasRegister 0 ∧ (m4.setSp (BitVec.ofInt 32 (-2))).sp.toInt < -1 ∧
      1 ≤ (m4.setSp (BitVec.ofInt 32 (-2))).memorySize) := by decide

theorem witness_MovCopiesSecondToFirst : (m4.hasRegister 0 ∧ m4.hasRegister 3) ∧
    firstBadRegister m4 [5, 4] = some 5 := by decide

theorem witness_LogicWritesBitwiseResult : (m4.hasRegister 0 ∧ m4.hasRegister 2 ∧ m4.hasRegister 3) ∧
    firstBadRegister m4 [0, 2, 4] = some 4 := by decide

theorem witness_ShlMultipliesByPowerOfTwo : (m4.hasRegister 0 ∧ m4.hasRegister 2 ∧ m4.hasRegister 3) ∧
    firstBadRegister m4 [0, 4, -1] = some 4 := by decide

theorem witness_ShrDividesRoundingDown : (m4.hasRegister 2 ∧ m4.hasRegister 3 ∧ m4.hasRegister 0) ∧
    firstBadRegister m4 [-1, 4, 4] = some (-1) := by decide

theorem witness_NotComplementsFirstIntoSecond : 2 ≤ 32 ∧ (m4.hasRegister 2 ∧ m4.hasRegister 3) ∧
    firstBadRegister m4 [0, 7] = some 7 := by decide

theorem witness_CmpWritesSignedOrderToRegisterZero : 2 ≤ 32 ∧ (m4.hasRegister 0 ∧ m4.hasRegister 3) ∧
    firstBadRegister m4 [1, 4] = some 4 := by decide

theorem witness_TestWritesBitwiseAndToRegisterZero : (m4.hasRegister 3 ∧ m4.hasRegister 0) ∧
    firstBadRegister m4 [-1, 0] = some (-1) := by decide

theorem witness_JmpSetsPointer : inField 32 (-2147483648) = true ∧ inField 32 2147483647 = true := by decide

theorem witness_JzJnzTestTheNamedRegister :
    (inField 32 2147483647 = true ∧ m4.hasRegister 1 ∧ (m4.reg 1).toInt = 0) ∧
    (inField 32 (-2147483648) = true ∧ m4.hasRegister 3 ∧ (m4.reg 3).toInt ≠ 0) ∧
    firstBadRegister m4 [4] = some 4 := by decide

theorem witness_JeJneCompareTheNamedRegisters :
    (inField 32 2147483647 = true ∧ m4.hasRegister 3 ∧ m4.hasRegister 3) ∧
    (inField 32 (-2147483648) = true ∧ m4.hasRegister 0 ∧ m4.hasRegister 3 ∧
      (m4.reg 0).toInt ≠ (m4.reg 3).toInt) ∧
    firstBadRegister m4 [0, 4] = some 4 := by decide

/-- ADD answers a next state, and register 0 is not the one it writes. -/
theorem witness_OnlyTheWrittenRegisterChanges :
    (∃ t, exec (.add 1 2 3) ⟨32, m4⟩ = .next t) ∧ writtenRegister (.add 1 2 3) ≠ some ((0 : Nat) : Int) :=
  ⟨⟨_, rfl⟩, by decide⟩

theorem witness_OnlyTheStoredCellChanges :
    ((∃ t, exec (.store 0 6) ⟨32, m4⟩ = .next t) ∧ storedCell (.store 0 6) m4 ≠ some ((7 : Nat) : Int)) ∧
    ((∃ t, exec (.push 0) ⟨32, m4⟩ = .next t) ∧ storedCell (.push 0) m4 ≠ some ((6 : Nat) : Int)) ∧
    ((∃ t, exec (.load 0 6) ⟨32, m4⟩ = .next t) ∧ storedCell (.load 0 6) m4 ≠ some ((6 : Nat) : Int)) :=
  ⟨⟨⟨_, rfl⟩, by decide⟩, ⟨⟨_, rfl⟩, by decide⟩, ⟨⟨_, rfl⟩, by decide⟩⟩

/-- An instruction that goes on, one that raises, and HALT. -/
theorem witness_OtherStateChangesOnlyAsNamed :
    (∃ t, exec (.add 0 1 2) ⟨32, m4⟩ = .next t ∧ t.block.status = .running) ∧
    (∃ t, exec (.add 0 1 4) ⟨32, m4⟩ = .next t ∧ t.block.status = .failed) ∧
    (∃ t, exec .halt ⟨32, m4⟩ = .next t ∧ t.block.status = .done) :=
  ⟨⟨_, rfl, rfl⟩, ⟨_, rfl, rfl⟩, ⟨_, rfl, rfl⟩⟩

theorem witness_OnlyTheReadRegistersMatter : (Instr.add 0 1 2) ≠ .halt ∧
    ((3 : Nat) : Int) ∉ readRegisters (.add 0 1 2) ∧ writtenRegister (.add 0 1 2) ≠ some ((3 : Nat) : Int) := by
  decide

theorem witness_EveryInstructionChecksTheRegistersItUses : m4.status = .running ∧
    firstBadRegister m4 (registerFields (.je 0 4 99)) = some 4 ∧
    firstBadRegister m4 (registerFields (.jmp 99)) = none := by decide

/-- One instruction for each error an instruction can raise. -/
theorem witness_EachErrorHasItsInstructionAndCondition : m4.status = .running ∧
    exec (.add 0 4 1) ⟨32, m4⟩ = .next ⟨32, m4.fail (.registerOutOfBounds 4)⟩ ∧
    exec (.load 0 8) ⟨32, m4⟩ = .next ⟨32, m4.fail (.memoryAddressOutOfBounds 8)⟩ ∧
    exec (.div 0 1 2) ⟨32, m4⟩ = .next ⟨32, m4.fail .divisionByZero⟩ ∧
    exec (.push 0) ⟨32, m4.setSp (BitVec.ofInt 32 (-1))⟩ =
      .next ⟨32, (m4.setSp (BitVec.ofInt 32 (-1))).fail .stackOverflow⟩ ∧
    exec (.pop 0) ⟨32, m4⟩ = .next ⟨32, m4.fail .stackUnderflow⟩ := ⟨rfl, rfl, rfl, rfl, rfl, rfl⟩

/-! The words the engine's witnesses fetch. -/

def wAdd : InstrWord 32 := 0x000000000000000000000001000000020000000000000000#192
def wAddBad : InstrWord 32 := 0x000000000000000900000000FFFFFFFF0000000000000000#192
def wPush : InstrWord 32 := 0x000000070000000000000000000000000000000000000000#192
def wJmp0 : InstrWord 32 := 0x000000120000000000000000000000000000000000000000#192
def wJz : InstrWord 32 := 0x000000130000000000000000000000000000000900000000#192
def wJnz : InstrWord 32 := 0x000000140000000100000000000000000000000900000000#192
def wJzSelf : InstrWord 32 := 0x000000130000000100000000000000000000000000000000#192
def wJnzSelf : InstrWord 32 := 0x000000140000000000000000000000000000000000000000#192
def wJe : InstrWord 32 := 0x000000150000000000000000000000007FFFFFFF00000000#192
def wJeNot : InstrWord 32 := 0x000000150000000000000001000000000000000400000000#192
def wJne : InstrWord 32 := 0x00000016000000000000000100000000FFFFFFFF00000000#192
def wJneNot : InstrWord 32 := 0x000000160000000000000000000000000000000400000000#192
def wHalt : InstrWord 32 := 0x000000170000000000000000000000000000000000000000#192
def wUnknown : InstrWord 32 := 0x000000180000000000000000000000000000000000000000#192
def wNegative : InstrWord 32 := 0xFFFFFFFF0000000000000000000000000000000000000000#192

/-- `m4` with a word at index 0 of a ten word program. -/
def placed (w : InstrWord 32) : Block 32 := Block.placed m4 0 w

theorem placed_fetches (w : InstrWord 32) : Fetches (placed w) w where
  running := rfl
  launched := rfl
  counted := by show (0 : Int) < 1000; decide
  index := by show (0 : Int) ≤ 0; decide
  word := rfl

theorem placed_inv (w : InstrWord 32) : (placed w).Inv := by
  constructor
  case inputs => rfl
  case memory => exact ⟨List.Pairwise.nil, fun c h => absurd h List.not_mem_nil⟩
  case cells => exact fun c h => absurd h List.not_mem_nil
  case stackPointer => exact ⟨by show (-1 : Int) ≤ 7; decide, by show (7 : Int) ≤ 8 - 1; decide⟩
  case count => exact ⟨by show (0 : Int) ≤ 0; decide, by show (0 : Int) ≤ 1000; decide⟩
  case pointer => exact ⟨by show (-2147483648 : Int) ≤ 0; decide, by show (0 : Int) ≤ 2147483648; decide⟩
  case whileRunning => exact fun _ => ⟨rfl, rfl⟩
  case whenDone => exact fun h => Status.noConfusion h
  case whenFailed => exact fun h => Status.noConfusion h

/-- One word of each class: counted and going on, jump, halt, a raised error, and a fault (`sp` outside
its invariant). -/
theorem witness_StepRunsTheDecodedInstruction :
    (Fetches (placed wAdd) wAdd ∧ decode wAdd = .instr (.add 0 1 2) ∧
      ∃ t, exec (.add 0 1 2) ⟨32, placed wAdd⟩ = .next t ∧ t.block.status = .running) ∧
    (Fetches (placed wJmp0) wJmp0 ∧ decode wJmp0 = .instr (.jmp 0)) ∧
    (Fetches (placed wHalt) wHalt ∧ decode wHalt = .instr .halt) ∧
    (Fetches (placed wAddBad) wAddBad ∧ decode wAddBad = .instr (.add 9 0 (-1)) ∧
      ∃ t, exec (.add 9 0 (-1)) ⟨32, placed wAddBad⟩ = .next t ∧ t.block.status ≠ .running) ∧
    (Fetches ((placed wPush).setSp 8#32) wPush ∧ decode wPush = .instr (.push 0) ∧
      exec (.push 0) ⟨32, (placed wPush).setSp 8#32⟩ = .fault (.noSuchCell 8)) := by
  refine ⟨⟨placed_fetches _, by decide, _, rfl, rfl⟩, ⟨placed_fetches _, by decide⟩,
    ⟨placed_fetches _, by decide⟩, ⟨placed_fetches _, by decide, _, rfl, by decide⟩, ?_, by decide, rfl⟩
  constructor <;> first | rfl | decide

/-- `pc` equal to `PROGRAM_SIZE`, at the ceiling. -/
theorem witness_PointerPastProgramEndsTheRun :
    let s := { placed wAdd with pc := 10#33, icount := 1000#32 }
    s.status = .running ∧ launchOk s.inputs = true ∧ s.pc.toInt ≥ s.programSize := by decide

/-- `icount` equal to the ceiling, at an index of the program and at a negative one. -/
theorem witness_GuardRaisesBeforeTheFetch :
    ([9#33, BitVec.ofInt 33 (-3)] : List (Pc 32)).all (fun p =>
      let s := { placed wHalt with pc := p, icount := 1000#32 }
      decide (s.status = .running ∧ launchOk s.inputs = true ∧ s.pc.toInt < s.programSize ∧
        s.icount.toInt ≥ s.maxInstructionCount)) = true := by decide

theorem witness_NegativePointerRaisesAtTheFetch :
    let s := { placed wAdd with pc := BitVec.ofInt 33 (-1), icount := 999#32 }
    s.status = .running ∧ launchOk s.inputs = true ∧ s.pc.toInt < 0 ∧
      s.icount.toInt < s.maxInstructionCount := by decide

theorem witness_UnknownOpcodeFollowsThePolicy :
    (Fetches (placed wUnknown) wUnknown ∧ fieldAt wUnknown 5 > 23 ∧
      (placed wUnknown).unknownOpcodePolicy = .fault) ∧
    (Fetches { placed wNegative with unknownOpcodePolicy := .nop } wNegative ∧ fieldAt wNegative 5 < 0) := by
  refine ⟨⟨placed_fetches _, by decide, rfl⟩, ?_, by decide⟩
  constructor <;> first | rfl | decide

theorem witness_NoStepAfterTheEnd : m4.finish.status ≠ .running ∧ (m4.fail .stackOverflow).status ≠ .running := by
  decide

/-- Each broken precondition, and a running machine that holds one. -/
theorem witness_BrokenLaunchIsRefused :
    (let l : Launch := ⟨32, 0, 8, 1000, .fault, []⟩; l.numRegisters = 0) ∧
    (let l : Launch := ⟨32, 4, 0, 1000, .fault, []⟩; l.memorySize = 0) ∧
    (let l : Launch := ⟨32, 4, 8, 0, .fault, []⟩; l.maxInstructionCount = 0) ∧
    (let l : Launch := ⟨32, 2147483648, 8, 1000, .fault, []⟩; 2 ^ (l.xlen - 1) ≤ l.numRegisters) ∧
    (let l : Launch := ⟨32, 4, 2147483648, 1000, .fault, []⟩; 2 ^ (l.xlen - 1) ≤ l.memorySize) ∧
    (let l : Launch := ⟨32, 4, 8, 2147483648, .fault, []⟩; 2 ^ (l.xlen - 1) ≤ l.maxInstructionCount) ∧
    (let l : Launch := ⟨32, 4, 8, 1000, .fault, List.replicate 2147483648 0⟩;
      2 ^ (l.xlen - 1) ≤ l.program.length) ∧
    (let l : Launch := ⟨1, 1, 1, 1, .fault, []⟩; l.xlen < 2) ∧
    (let s := { m4 with memorySize := 0 }; s.status = .running ∧ launchOk s.inputs ≠ true) := by
  refine ⟨rfl, rfl, rfl, by decide, by decide, by decide, ?_, by decide, by decide⟩
  simp only [List.length_replicate]
  decide

theorem witness_TakenJeJneLandsOnePastItsTarget :
    (Fetches (placed wJe) wJe ∧ (placed wJe).Inv ∧ (placed wJe).hasRegister 0 ∧
      (∃ t, step ⟨32, placed wJe⟩ = .next t) ∧ decode wJe = .instr (.je 0 0 2147483647)) ∧
    (Fetches (placed wJeNot) wJeNot ∧ (placed wJeNot).Inv ∧ (placed wJeNot).hasRegister 0 ∧
      (placed wJeNot).hasRegister 1 ∧ (placed wJeNot).reg 0 ≠ (placed wJeNot).reg 1 ∧
      (∃ t, step ⟨32, placed wJeNot⟩ = .next t) ∧ decode wJeNot = .instr (.je 0 1 4)) ∧
    (Fetches (placed wJne) wJne ∧ (placed wJne).Inv ∧ (placed wJne).hasRegister 0 ∧
      (placed wJne).hasRegister 1 ∧ (placed wJne).reg 0 ≠ (placed wJne).reg 1 ∧
      (∃ t, step ⟨32, placed wJne⟩ = .next t) ∧ decode wJne = .instr (.jne 0 1 (-1))) ∧
    (Fetches (placed wJneNot) wJneNot ∧ (placed wJneNot).Inv ∧ (placed wJneNot).hasRegister 0 ∧
      (∃ t, step ⟨32, placed wJneNot⟩ = .next t) ∧ decode wJneNot = .instr (.jne 0 0 4)) :=
  ⟨⟨placed_fetches _, placed_inv _, by decide, ⟨_, rfl⟩, by decide⟩,
   ⟨placed_fetches _, placed_inv _, by decide, by decide, by decide, ⟨_, rfl⟩, by decide⟩,
   ⟨placed_fetches _, placed_inv _, by decide, by decide, by decide, ⟨_, rfl⟩, by decide⟩,
   ⟨placed_fetches _, placed_inv _, by decide, ⟨_, rfl⟩, by decide⟩⟩

/-- Each of the five loops: JZ and JNZ not taken, JZ and JNZ to themselves, JMP to itself. -/
theorem witness_UncountedSelfLoopsNeverEnd :
    (Fetches (placed wJz) wJz ∧ (placed wJz).hasRegister 0 ∧ decode wJz = .instr (.jz 0 9) ∧
      (placed wJz).reg 0 ≠ 0#32) ∧
    (Fetches (placed wJnz) wJnz ∧ (placed wJnz).hasRegister 1 ∧ decode wJnz = .instr (.jnz 1 9) ∧
      (placed wJnz).reg 1 = 0#32) ∧
    (Fetches (placed wJzSelf) wJzSelf ∧ (placed wJzSelf).hasRegister 1 ∧
      decode wJzSelf = .instr (.jz 1 (placed wJzSelf).pc.toInt)) ∧
    (Fetches (placed wJnzSelf) wJnzSelf ∧ (placed wJnzSelf).hasRegister 0 ∧
      decode wJnzSelf = .instr (.jnz 0 (placed wJnzSelf).pc.toInt)) ∧
    (Fetches (placed wJmp0) wJmp0 ∧ (placed wJmp0).hasRegister 0 ∧
      decode wJmp0 = .instr (.jmp (placed wJmp0).pc.toInt)) :=
  ⟨⟨placed_fetches _, by decide, by decide, by decide⟩, ⟨placed_fetches _, by decide, by decide, by decide⟩,
   ⟨placed_fetches _, by decide, by decide⟩, ⟨placed_fetches _, by decide, by decide⟩,
   ⟨placed_fetches _, by decide, by decide⟩⟩

/-- A program of ADDs and one HALT. -/
theorem witness_ProgramWithoutUncountedJumpsEnds :
    (placed wHalt).Inv ∧ (placed wHalt).status = .running ∧
    ∀ w ∈ (placed wHalt).program, ∀ i, decode w = .instr i → dispatchClass i ≠ .jump := by
  have h : (placed wHalt).program.all (fun w => match decode w with
      | .instr i => decide (dispatchClass i ≠ .jump)
      | .unknownOpcode _ => true) = true := by decide
  refine ⟨placed_inv _, rfl, fun w hw i hi => ?_⟩
  have := List.all_eq_true.1 h w hw
  rw [hi] at this
  simpa using this

/-- A counted instruction, a jump, and the end of a run. -/
theorem witness_OnlyCompletedCountedInstructionsCount :
    ((placed wAdd).Inv ∧ ∃ t, step ⟨32, placed wAdd⟩ = .next t ∧ t.block.icount.toInt = 1) ∧
    ((placed wJmp0).Inv ∧ ∃ t, step ⟨32, placed wJmp0⟩ = .next t ∧ t.block.icount.toInt = 0 ∧ t.block.status = .running) ∧
    ((placed wHalt).Inv ∧ ∃ t, step ⟨32, placed wHalt⟩ = .next t ∧ t.block.status ≠ .running) :=
  ⟨⟨placed_inv _, _, rfl, rfl⟩, ⟨placed_inv _, _, rfl, rfl, rfl⟩, ⟨placed_inv _, _, rfl, by decide⟩⟩

theorem witness_FailedStepChangesOnlyStatusAndErr :
    ∃ t, step ⟨32, placed wAddBad⟩ = .next t ∧ t.block.status = .failed := ⟨_, rfl, rfl⟩

theorem witness_SnapshotIsTakenAtTheNormalEndOnly :
    (∃ t, step ⟨32, placed wHalt⟩ = .next t ∧ t.block.status = .done) ∧
    (∃ t, step ⟨32, placed wAdd⟩ = .next t ∧ t.block.status ≠ .done) ∧
    (∃ t, step ⟨32, placed wAddBad⟩ = .next t ∧ t.block.status ≠ .done) :=
  ⟨⟨_, rfl, rfl⟩, ⟨_, rfl, by decide⟩, ⟨_, rfl, by decide⟩⟩

theorem witness_StepKeepsTheRunInputs : ∃ t, step ⟨32, placed wPush⟩ = .next t ∧ (t.block.cell 7).toInt = 3 :=
  ⟨_, rfl, by decide⟩

theorem witness_EveryStepKeepsTheInvariant : (placed wPush).Inv ∧ ∃ t, step ⟨32, placed wPush⟩ = .next t :=
  ⟨placed_inv _, _, rfl⟩

/-- The smallest and the largest sizes a launch may have, and the least width. -/
theorem witness_InvariantHoldsAtReset : launchOk ⟨32, 1, 1, 1, .fault, []⟩ = true ∧
    launchOk ⟨32, 2147483647, 2147483647, 2147483647, .nop, [0]⟩ = true ∧
    launchOk ⟨2, 1, 1, 1, .fault, []⟩ = true := by decide

/-- A reset machine is reachable and running. -/
theorem witness_ReachableMachineIsNeverStuck : Reachable State.reset ∧ State.reset.block.status = .running :=
  ⟨.launched _ (by decide), rfl⟩

theorem witness_LoadAfterStore : Memory.wf m4.memory ∧ m4.hasRegister 0 ∧ m4.hasCell 0 ∧ m4.hasRegister 3 ∧
    m4.hasCell 7 := by decide

/-- With one free cell left (`sp = 0`), and with room for two. -/
theorem witness_PushThenPopRoundTrip :
    ((placed wPush).Inv ∧ (placed wPush).hasRegister 0 ∧ (placed wPush).hasRegister 3 ∧
      1 ≤ (placed wPush).sp.toInt) ∧
    (((placed wPush).setSp 0#32).Inv ∧ 0 ≤ ((placed wPush).setSp 0#32).sp.toInt) := by
  have h := placed_inv wPush
  exact ⟨⟨h, by decide⟩, ⟨h.inputs, h.memory, h.cells, by decide, h.count, h.pointer, h.whileRunning,
    fun e => Status.noConfusion e, h.whenFailed⟩, by decide⟩

theorem witness_EveryRegisterIsOrdinary : 0 < m4.numRegisters ∧ 3 < m4.numRegisters := by decide

/-- The empty stack and the full one. -/
theorem witness_SnapshotHoldsRegistersAndLiveStack :
    ([7#32, BitVec.ofInt 32 (-1)] : List (Word 32)).all (fun v => let s := m4.setSp v
      decide (-1 ≤ s.sp.toInt ∧ s.sp.toInt ≤ (s.memorySize : Int) - 1)) = true := by decide

theorem witness_ResetLeavesTheStatedValues : launchOk ⟨32, 1, 1, 1, .fault, []⟩ = true ∧
    launchOk ⟨32, 3, 4, 1000, .fault, [wAdd]⟩ = true := by decide

/-- A running machine, and the machines after a normal end and after an error. -/
theorem witness_HostSeesOnlyTheResult :
    ((placed wAdd).Inv ∧ (placed wAdd).status = .running) ∧
    ((placed wAdd).finish.Inv ∧ (placed wAdd).finish.status = .done) ∧
    (((placed wAdd).fail .stackOverflow).Inv ∧ ((placed wAdd).fail .stackOverflow).status = .failed) := by
  have h := placed_inv wAdd
  exact ⟨⟨h, rfl⟩,
    ⟨⟨h.inputs, h.memory, h.cells, h.stackPointer, h.count, h.pointer, fun e => Status.noConfusion e,
      fun _ => ⟨rfl, rfl⟩, fun e => Status.noConfusion e⟩, rfl⟩,
    ⟨⟨h.inputs, h.memory, h.cells, h.stackPointer, h.count, h.pointer, fun e => Status.noConfusion e,
      fun e => Status.noConfusion e, fun _ => ⟨Option.some_ne_none _, rfl⟩⟩, rfl⟩⟩

theorem witness_LoadedWordIsFetchedNext :
    (launchOk State.reset.block.inputs = true ∧ State.reset.block.pc.toInt < Config.maxParameter 32) ∧
    (launchOk m4.finish.inputs = true ∧ m4.finish.pc.toInt < Config.maxParameter 32) := by decide

/-- The default width, and the least width whose opcode field holds 23. -/
theorem witness_DecodeOfEncodeIsIdentity :
    (WellFormed 32 (.je 2147483647 (-2147483648) (-1)) ∧ inField 32 21 = true) ∧
    (WellFormed 6 (.jne 31 (-32) (-1)) ∧ inField 6 (Instr.jne 31 (-32) (-1)).opcode = true) := by decide

theorem witness_WrapIsCongruentAndInRange : 1 ≤ 1 ∧ 1 ≤ 32 := by decide

theorem witness_EncodeOfDecodeKeepsTheUsedBits : 1 ≤ 32 ∧ decode wJne = .instr (.jne 0 1 (-1)) := by decide

/-- V-MEM-10's word against the word without its ignored bits. -/
theorem witness_UnusedBitsAreIgnored :
    let w : InstrWord 32 := 0x00000006000000000000000000000000000000000000002A#192;
    let v : InstrWord 32 := 0x000000060000000000000063FFFFFFFB0000004D0000002A#192;
    decode w = .instr (.loadImmediate 0 42) ∧
      v &&& usedBits 32 (Instr.loadImmediate 0 42).operandClass =
        w &&& usedBits 32 (Instr.loadImmediate 0 42).operandClass := by decide

/-- The last opcode of the table, and the numbers next to the table. -/
theorem witness_OpcodeFieldSelectsTheInstruction :
    (inField 32 23 = true ∧ wHalt &&& fieldMask 32 5 = BitVec.ofNat _ 23 <<< (5 * 32)) ∧
    fieldAt wUnknown 5 = 24 ∧ fieldAt wNegative 5 = -1 := by decide

end Sys2Proof.Tests
end

section
/-! PROOFS. The decoder by the used bits: what a word decodes to is fixed by the fields the opcode's class
uses (R71, R77). -/

namespace Sys2Proof

variable {xlen : Nat}

/-- The fields with every one that class `c` does not use set to 0, as the encoder assembles it (R82). -/
def Fields.keepUsed (c : OperandClass) (f : Fields) : Fields where
  opcode    := f.opcode
  reg1      := if 4 ∈ usedFields c then f.reg1 else 0
  reg2      := if 3 ∈ usedFields c then f.reg2 else 0
  reg3      := if 2 ∈ usedFields c then f.reg3 else 0
  addr      := if 1 ∈ usedFields c then f.addr else 0
  immediate := if 0 ∈ usedFields c then f.immediate else 0

/-- Every class uses the opcode field. -/
theorem opcode_mem_usedFields (c : OperandClass) : 5 ∈ usedFields c := by
  cases c <;> decide

/-- Masking a word to the bits a class uses keeps the fields of the class. -/
theorem splitWord_and_usedBits (w : InstrWord xlen) (c : OperandClass) :
    splitWord (w &&& usedBits xlen c) = (splitWord w).keepUsed c := by
  simp [splitWord, Fields.keepUsed, fieldAt_and_usedBits, opcode_mem_usedFields]

/-- The fields of an instruction select that instruction. -/
theorem decodeFields_fieldsOf (i : Instr) : decodeFields (fieldsOf i) = .instr i := by
  cases i <;> rfl

/-- With the opcode of `i`, the fields that the class of `i` does not use make no difference (R71). -/
theorem decodeFields_keepUsed {f : Fields} {i : Instr} (hop : f.opcode = i.opcode) :
    decodeFields (f.keepUsed i.operandClass) = decodeFields f := by
  cases i <;> simp only [Instr.opcode] at hop <;>
    simp [decodeFields, Fields.keepUsed, usedFields, Instr.operandClass, hop]

/-- Selecting an instruction reads its opcode and the fields of its class, and no other. -/
theorem decodeFields_eq_instr_iff {f : Fields} {i : Instr} :
    decodeFields f = .instr i ↔ f.keepUsed i.operandClass = fieldsOf i := by
  constructor
  · intro h
    unfold decodeFields at h
    split at h <;> cases h <;>
      simp [Fields.keepUsed, usedFields, fieldsOf, Instr.operandClass, Instr.opcode, *]
  · intro h
    have hop : f.opcode = i.opcode := by rw [← fieldsOf_opcode, ← h, Fields.keepUsed]
    rw [← decodeFields_keepUsed hop, h, decodeFields_fieldsOf]

/-- A word decodes to `i` exactly when the bits the class of `i` uses hold the fields of `i`. -/
theorem decode_eq_instr_iff {w : InstrWord xlen} {i : Instr} :
    decode w = .instr i ↔ splitWord (w &&& usedBits xlen i.operandClass) = fieldsOf i := by
  rw [decode, decodeFields_eq_instr_iff, splitWord_and_usedBits]

/-- Settles O58: decoding to `i` is a property of the masked word alone. -/
theorem unusedBitsAreIgnored : Obligations.UnusedBitsAreIgnored := by
  intro xlen w v i hw hused
  rw [decode_eq_instr_iff] at hw ⊢
  rw [hused, hw]

end Sys2Proof
end

section
/-! PROOFS. ADD, SUB, MUL and DIV (spec/40_arithmetic.md): each instruction's equation split by whether
its register fields are in range. -/

namespace Sys2Proof.Machine

variable {xlen : Nat} {s : Block xlen} {i : Instr}

/-- An instruction that checks the registers `rs` first reports the first bad one (R23, R214). -/
theorem reportsBadRegister_of_exec_eq {rs : List Int} {ok : Result}
    (h : exec i ⟨xlen, s⟩ =
      match firstBadRegister s rs with
      | some q => .next ⟨xlen, s.fail (.registerOutOfBounds q)⟩
      | none => ok) :
    ReportsBadRegister i rs s := by
  intro r hr
  rw [h, hr]

/-- An instruction of class RRR goes on to its own effect when its three registers exist (R105, R139). -/
theorem exec_eq_of_three_registers {a b c : Int} {ok : Result}
    (h : exec i ⟨xlen, s⟩ =
      match firstBadRegister s [a, b, c] with
      | some q => .next ⟨xlen, s.fail (.registerOutOfBounds q)⟩
      | none => ok)
    (ha : s.hasRegister a) (hb : s.hasRegister b) (hc : s.hasRegister c) : exec i ⟨xlen, s⟩ = ok := by
  rw [h, firstBadRegister_three ha hb hc]

/-- Settles O1: `addResult` is the wrapped sum by definition. -/
theorem addWritesWrappedSum : Obligations.AddWritesWrappedSum := fun _ s a b c =>
  ⟨exec_eq_of_three_registers (exec_add s a b c), reportsBadRegister_of_exec_eq (exec_add s a b c), rfl⟩

/-- Settles O2: `subResult` is the wrapped difference by definition. -/
theorem subWritesWrappedDifference : Obligations.SubWritesWrappedDifference := fun _ s a b c =>
  ⟨exec_eq_of_three_registers (exec_sub s a b c), reportsBadRegister_of_exec_eq (exec_sub s a b c), rfl⟩

/-- Settles O3: `mulResult` is the wrapped product by definition. -/
theorem mulWritesWrappedProduct : Obligations.MulWritesWrappedProduct := fun _ s a b c =>
  ⟨exec_eq_of_three_registers (exec_mul s a b c), reportsBadRegister_of_exec_eq (exec_mul s a b c), rfl⟩

/-- Settles O4: behind the register checks DIV branches on the divisor's word, which is the zero word
exactly when its signed value is 0. -/
theorem divWritesQuotientTowardZero : Obligations.DivWritesQuotientTowardZero := by
  intro xlen s a b c
  refine ⟨fun ha hb hc hne => ?_, fun ha hb hc hzero => ?_, reportsBadRegister_of_exec_eq (exec_div s a b c), rfl⟩
  · have hword : s.reg b.toNat ≠ 0 := mt toInt_eq_zero.2 hne
    exact (exec_eq_of_three_registers (exec_div s a b c) ha hb hc).trans (if_neg hword)
  · have hword : s.reg b.toNat = 0 := toInt_eq_zero.1 hzero
    exact (exec_eq_of_three_registers (exec_div s a b c) ha hb hc).trans (if_pos hword)

end Sys2Proof.Machine
end

section
/-! PROOFS. STORE, LOAD and LOAD_IMMEDIATE (spec/41_memory_access.md): each instruction's equation past the
check of its register, then STORE's and LOAD's split by whether the address names a cell. -/

namespace Sys2Proof.Machine

variable {xlen : Nat} {s : Block xlen} {i : Instr}

/-- An instruction that checks the registers `rs` first goes on to its own effect when none is bad (R23). -/
theorem exec_eq_of_no_bad_register {rs : List Int} {ok : Result}
    (h : exec i ⟨xlen, s⟩ =
      match firstBadRegister s rs with
      | some q => .next ⟨xlen, s.fail (.registerOutOfBounds q)⟩
      | none => ok)
    (hrs : firstBadRegister s rs = none) : exec i ⟨xlen, s⟩ = ok := by
  rw [h, hrs]

/-- An instruction that checks a register and then an address goes on to its own effect when both name
something (R113). -/
theorem exec_eq_of_register_of_cell {r a : Int} {k : Nat → BlockResult xlen}
    (h : exec i ⟨xlen, s⟩ =
      match firstBadRegister s [r] with
      | some q => .next ⟨xlen, s.fail (.registerOutOfBounds q)⟩
      | none => lift (checkAddr s a k))
    (hr : s.hasRegister r) (ha : s.hasCell a) : exec i ⟨xlen, s⟩ = lift (k a.toNat) := by
  rw [exec_eq_of_no_bad_register h (firstBadRegister_one hr), checkAddr_of_hasCell ha]

/-- Behind a good register a bad address ends the run, whatever effect stands behind the checks (R53, R113). -/
theorem exec_eq_of_register_of_not_cell {r a : Int} {k : Nat → BlockResult xlen}
    (h : exec i ⟨xlen, s⟩ =
      match firstBadRegister s [r] with
      | some q => .next ⟨xlen, s.fail (.registerOutOfBounds q)⟩
      | none => lift (checkAddr s a k))
    (hr : s.hasRegister r) (ha : ¬ s.hasCell a) :
    exec i ⟨xlen, s⟩ = .next ⟨xlen, s.fail (.memoryAddressOutOfBounds a)⟩ := by
  rw [exec_eq_of_no_bad_register h (firstBadRegister_one hr), checkAddr_of_not ha, lift]

/-- Settles O6: STORE is the two checks in front of the write to the cell. -/
theorem storeWritesItsCell : Obligations.StoreWritesItsCell := fun _ s r a =>
  ⟨exec_eq_of_register_of_cell (exec_store s r a), exec_eq_of_register_of_not_cell (exec_store s r a),
    reportsBadRegister_of_exec_eq (exec_store s r a), rfl⟩

/-- Settles O7: LOAD is the two checks in front of the copy to the register. -/
theorem loadReadsItsCell : Obligations.LoadReadsItsCell := fun _ s r a =>
  ⟨exec_eq_of_register_of_cell (exec_load s r a), exec_eq_of_register_of_not_cell (exec_load s r a),
    reportsBadRegister_of_exec_eq (exec_load s r a), rfl⟩

/-- Settles O8: the word written is the immediate's field, which reads back the immediate that fits it. -/
theorem loadImmediateCopiesItsField : Obligations.LoadImmediateCopiesItsField := by
  intro xlen s r v hv
  refine ⟨fun hr => ⟨BitVec.ofInt xlen v, toInt_ofInt_inField hv, ?_⟩,
    reportsBadRegister_of_exec_eq (exec_loadImmediate s r v), rfl⟩
  exact exec_eq_of_no_bad_register (exec_loadImmediate s r v) (firstBadRegister_one hr)

end Sys2Proof.Machine
end

section
/-! PROOFS. PUSH and POP (spec/42_stack.md): what each does to the block when `sp` names a cell, then the
round trips, which follow from where a push leaves its value and from a pop's undoing the decrement. -/

namespace Sys2Proof.Machine

variable {xlen : Nat} {s : Block xlen} {r : Int}

/-! ## The block after a push and after a pop -/

/-- The block after PUSH of the word `v` (R120). -/
def Block.pushed (s : Block xlen) (v : Word xlen) : Block xlen := (s.setCell s.sp.toInt.toNat v).setSp (s.sp - 1)

/-- The block after POP of the cell `a` names into register `i`, which leaves `sp` at `a` (R121). -/
def Block.popped (s : Block xlen) (i : Nat) (a : Word xlen) : Block xlen :=
  (s.setSp a).setReg i (s.cell a.toInt.toNat)

@[simp] theorem Block.pushed_sp (s : Block xlen) (v : Word xlen) : (s.pushed v).sp = s.sp - 1 := rfl
@[simp] theorem Block.popped_cell (s : Block xlen) (i : Nat) (a : Word xlen) (d : Nat) :
    (s.popped i a).cell d = s.cell d := rfl
@[simp] theorem Block.pushed_hasRegister (s : Block xlen) (v : Word xlen) (q : Int) :
    (s.pushed v).hasRegister q ↔ s.hasRegister q := Iff.rfl
@[simp] theorem Block.popped_hasRegister (s : Block xlen) (i : Nat) (a : Word xlen) (q : Int) :
    (s.popped i a).hasRegister q ↔ s.hasRegister q := by
  rw [Block.hasRegister, Block.popped, Block.setReg_numRegisters]
  exact Iff.rfl

/-- The popped register holds the cell that was popped. -/
theorem Block.popped_reg (h : s.hasRegister r) (a : Word xlen) :
    (s.popped r.toNat a).reg r.toNat = s.cell a.toInt.toNat := by
  have hlt : r.toNat < s.numRegisters := by omega
  exact (Block.reg_setReg (s := s.setSp a) hlt _ _).trans (if_pos rfl)

/-- A push puts its value in the cell at `sp` and keeps the other cells. -/
theorem Block.pushed_cell (h : Memory.wf s.memory) (v : Word xlen) (d : Nat) :
    (s.pushed v).cell d = if d = s.sp.toInt.toNat then v else s.cell d := Block.cell_setCell h _ v d

theorem Block.pushed_cell_sp (h : Memory.wf s.memory) (v : Word xlen) :
    (s.pushed v).cell s.sp.toInt.toNat = v := (Block.pushed_cell h v _).trans (if_pos rfl)

theorem Block.pushed_memory_wf (h : Memory.wf s.memory) (v : Word xlen) : Memory.wf (s.pushed v).memory :=
  Memory.wf_write h _ v

/-- Where `sp` names a cell, its decrement does not wrap: at the least it is -1. -/
theorem toInt_pred (hx : 2 ≤ xlen) {a : Word xlen} (ha : 0 ≤ a.toInt) : (a - 1).toInt = a.toInt - 1 := by
  have : (0 : Int) < 2 ^ (xlen - 1) := by positivity
  exact toInt_sub_one hx (by omega)

/-- A second push, below the first, keeps the first value in its cell. -/
theorem Block.pushed_pushed_cell (hx : 2 ≤ xlen) (h : Memory.wf s.memory) (hsp : 1 ≤ s.sp.toInt) (v w : Word xlen) :
    ((s.pushed v).pushed w).cell s.sp.toInt.toNat = v := by
  have hbelow : s.sp.toInt.toNat ≠ (s.pushed v).sp.toInt.toNat := by
    rw [Block.pushed_sp, toInt_pred hx (by omega)]
    omega
  rw [Block.pushed_cell (Block.pushed_memory_wf h v), if_neg hbelow, Block.pushed_cell_sp h]

/-- Popping right after a push brings the pushed value back (R123). -/
theorem Block.pushed_popped_reg (h : Memory.wf s.memory) (hr : s.hasRegister r) (v : Word xlen) :
    ((s.pushed v).popped r.toNat s.sp).reg r.toNat = v := by
  rw [Block.popped_reg ((Block.pushed_hasRegister ..).2 hr), Block.pushed_cell_sp h]

/-- The second pop after two pushes brings the value pushed first back (R123). -/
theorem Block.pushed_pushed_popped_popped_reg (hx : 2 ≤ xlen) (h : Memory.wf s.memory) (hsp : 1 ≤ s.sp.toInt)
    (hr : s.hasRegister r) (v w : Word xlen) (i : Nat) (a : Word xlen) :
    ((((s.pushed v).pushed w).popped i a).popped r.toNat s.sp).reg r.toNat = v := by
  have hr' : (((s.pushed v).pushed w).popped i a).hasRegister r := by simpa using hr
  rw [Block.popped_reg hr', Block.popped_cell, Block.pushed_pushed_cell hx h hsp]

/-! ## The instructions behind the register check -/

/-- PUSH with a cell at `sp` (R120). -/
theorem exec_push_of_hasCell (hr : s.hasRegister r) (hsp : s.hasCell s.sp.toInt) :
    exec (.push r) ⟨xlen, s⟩ = .next ⟨xlen, s.pushed (s.reg r.toNat)⟩ := by
  rw [exec_eq_of_no_bad_register (exec_push s r) (firstBadRegister_one hr), if_neg (by omega),
    stackCell_of_hasCell hsp, lift, Block.pushed]

/-- PUSH on a full stack (R204). -/
theorem exec_push_of_neg (hr : s.hasRegister r) (hsp : s.sp.toInt < 0) :
    exec (.push r) ⟨xlen, s⟩ = .next ⟨xlen, s.fail .stackOverflow⟩ := by
  rw [exec_eq_of_no_bad_register (exec_push s r) (firstBadRegister_one hr), if_pos hsp]

/-- POP with `sp` one below a cell `a`, as a push at `a` leaves it (R121). -/
theorem exec_pop_of_hasCell (hx : 2 ≤ xlen) {a : Word xlen} (hr : s.hasRegister r) (ha : s.hasCell a.toInt)
    (hsp : s.sp = a - 1) : exec (.pop r) ⟨xlen, s⟩ = .next ⟨xlen, s.popped r.toNat a⟩ := by
  have hcell : s.sp.toInt + 1 = a.toInt := by
    rw [hsp, toInt_pred hx ha.1]
    omega
  have hword : s.sp + 1 = a := by rw [hsp, sub_add_cancel]
  rw [exec_eq_of_no_bad_register (exec_pop s r) (firstBadRegister_one hr), if_neg (by omega), hcell, hword,
    stackCell_of_hasCell ha, lift, Block.popped]

/-- POP on an empty stack (R205). -/
theorem exec_pop_of_ge (hr : s.hasRegister r) (hsp : s.sp.toInt ≥ (s.memorySize : Int) - 1) :
    exec (.pop r) ⟨xlen, s⟩ = .next ⟨xlen, s.fail .stackUnderflow⟩ := by
  rw [exec_eq_of_no_bad_register (exec_pop s r) (firstBadRegister_one hr), if_pos hsp]

/-- Settles O9: the decremented `sp` reads one less because it named a cell. -/
theorem pushStoresThenDecrements : Obligations.PushStoresThenDecrements := fun _ s r =>
  ⟨fun hx hr hsp => ⟨s.sp - 1, toInt_pred hx hsp.1, exec_push_of_hasCell hr hsp⟩, exec_push_of_neg,
    reportsBadRegister_of_exec_eq (exec_push s r), rfl⟩

/-- Settles O10: the incremented `sp` reads one more because it names a cell, which is in the range of R8. -/
theorem popIncrementsThenLoads : Obligations.PopIncrementsThenLoads := by
  intro xlen s r
  refine ⟨fun hr hlow hroom hsize => ?_, exec_pop_of_ge, reportsBadRegister_of_exec_eq (exec_pop s r), rfl⟩
  have hmax : (s.memorySize : Int) ≤ 2 ^ (xlen - 1) - 1 := by
    rw [← Config.maxParameter_cast]
    omega
  have hx : 2 ≤ xlen := by
    by_contra hx
    rw [show xlen - 1 = 0 by omega] at hmax
    omega
  have hv : (s.sp + 1).toInt = s.sp.toInt + 1 := toInt_add_one hx (by omega)
  have hcell : s.hasCell (s.sp + 1).toInt := by
    rw [Block.hasCell, hv]
    omega
  exact ⟨s.sp + 1, hv, exec_pop_of_hasCell hx hr hcell (add_sub_cancel_right ..).symm⟩

/-- Settles O48: each pop undoes the decrement of the push it answers, and finds that push's value because
the other push went to another cell. -/
theorem pushThenPopRoundTrip : Obligations.PushThenPopRoundTrip := by
  intro xlen s r₁ r₂ inv h₁ h₂ hsp
  obtain ⟨hx, -⟩ := Block.ranges inv.inputs
  have hwf := inv.memory
  have hcell : s.hasCell s.sp.toInt := ⟨hsp, by have := inv.stackPointer; omega⟩
  refine ⟨s.pushed (s.reg r₁.toNat), _, exec_push_of_hasCell h₁ hcell, exec_pop_of_hasCell hx h₂ hcell rfl,
    Block.pushed_popped_reg hwf h₂ _, rfl, Block.pushed_cell_sp hwf _, fun r₃ r₄ h₃ h₄ hroom => ?_⟩
  have hbelow : s.hasCell (s.sp - 1).toInt := by
    rw [Block.hasCell, toInt_pred hx hsp]
    omega
  exact ⟨_, _, _, exec_push_of_hasCell h₂ hbelow, exec_pop_of_hasCell hx h₃ hbelow rfl,
    exec_pop_of_hasCell hx ((Block.popped_hasRegister ..).2 h₄) hcell rfl,
    Block.pushed_popped_reg (Block.pushed_memory_wf hwf _) h₃ _,
    Block.pushed_pushed_popped_popped_reg hx hwf hroom h₄ _ _ _ _, rfl⟩

end Sys2Proof.Machine
end

section
/-! PROOFS. MOV, AND, OR, XOR and NOT (spec/43_move_logic_shift.md): what each result is bit by bit or as an
integer, then each instruction's equation past its register checks. -/

namespace Sys2Proof.Machine

variable {xlen : Nat}

/-! ## The results (R137) -/

@[simp] theorem getLsbD_andResult (a b : Word xlen) (k : Nat) :
    (andResult a b).getLsbD k = (a.getLsbD k && b.getLsbD k) := BitVec.getLsbD_and

@[simp] theorem getLsbD_orResult (a b : Word xlen) (k : Nat) :
    (orResult a b).getLsbD k = (a.getLsbD k || b.getLsbD k) := BitVec.getLsbD_or

@[simp] theorem getLsbD_xorResult (a b : Word xlen) (k : Nat) :
    (xorResult a b).getLsbD k = (a.getLsbD k ^^ b.getLsbD k) := BitVec.getLsbD_xor

theorem toInt_notResult (hx : 1 ≤ xlen) (a : Word xlen) : (notResult a).toInt = -a.toInt - 1 := toInt_not hx a

/-! ## The instructions -/

/-- Settles O12: MOV is the two checks in front of the copy. -/
theorem movCopiesSecondToFirst : Obligations.MovCopiesSecondToFirst := fun _ s a b =>
  ⟨fun ha hb => exec_eq_of_no_bad_register (exec_mov s a b) (firstBadRegister_two ha hb),
    reportsBadRegister_of_exec_eq (exec_mov s a b), rfl⟩

/-- Settles O13: the three words written are the results of the ALU, whose bits are known. -/
theorem logicWritesBitwiseResult : Obligations.LogicWritesBitwiseResult := by
  intro xlen s a b c
  refine ⟨fun ha hb hc => ⟨andResult _ _, orResult _ _, xorResult _ _,
    fun k _ => ⟨getLsbD_andResult .., getLsbD_orResult .., getLsbD_xorResult ..⟩, ?_, ?_, ?_⟩,
    ⟨?_, ?_, ?_⟩, rfl, rfl, rfl⟩
  · exact exec_eq_of_three_registers (exec_and s a b c) ha hb hc
  · exact exec_eq_of_three_registers (exec_or s a b c) ha hb hc
  · exact exec_eq_of_three_registers (exec_xor s a b c) ha hb hc
  · exact reportsBadRegister_of_exec_eq (exec_and s a b c)
  · exact reportsBadRegister_of_exec_eq (exec_or s a b c)
  · exact reportsBadRegister_of_exec_eq (exec_xor s a b c)

/-- Settles O16: `notResult` is the complement by definition, and the complement reads `-a - 1`. -/
theorem notComplementsFirstIntoSecond : Obligations.NotComplementsFirstIntoSecond := fun _ s a b =>
  ⟨fun hx ha hb => ⟨notResult (s.reg a.toNat), rfl, toInt_notResult (by omega) _,
      exec_eq_of_no_bad_register (exec_not s a b) (firstBadRegister_two ha hb)⟩,
    reportsBadRegister_of_exec_eq (exec_not s a b), rfl⟩

end Sys2Proof.Machine
end

section
/-! PROOFS. TEST (spec/44_compare.md): its equation past the checks of its two registers. -/

namespace Sys2Proof.Machine

/-- Settles O18: TEST is the two checks in front of the write of `testResult`, the bitwise AND by definition. -/
theorem testWritesBitwiseAndToRegisterZero : Obligations.TestWritesBitwiseAndToRegisterZero := fun _ s a b =>
  ⟨fun ha hb => exec_eq_of_no_bad_register (exec_test s a b) (firstBadRegister_two ha hb),
    reportsBadRegister_of_exec_eq (exec_test s a b), rfl⟩

end Sys2Proof.Machine
end

section
/-! PROOFS. The jumps and HALT (spec/45_control.md): the two conditions as statements about the registers,
then each instruction's equation past its register checks. -/

namespace Sys2Proof.Machine

variable {xlen : Nat} {s : Block xlen}

/-! ## The conditions -/

@[simp] theorem isZero_iff {a : Word xlen} : isZero a ↔ a.toInt = 0 := decide_eq_true_iff

@[simp] theorem isEqual_iff {a b : Word xlen} : isEqual a b ↔ a.toInt = b.toInt := decide_eq_true_iff

/-- JNZ and JNE branch on the negated condition: they jump where JZ and JE stay. -/
theorem jumpUnless_eq {c : Bool} {p : Prop} [Decidable p] (hc : c ↔ p) (a : Int) :
    (if !c then s.setPc a else s) = if p then s else s.setPc a := by
  simp only [Bool.not_eq_true', ← Bool.not_eq_true, hc, ite_not]

/-! ## The instructions behind the register checks -/

/-- JZ with a register that exists (R152). -/
theorem exec_jz_of_hasRegister {r : Int} (hr : s.hasRegister r) (a : Int) :
    exec (.jz r a) ⟨xlen, s⟩ = .next ⟨xlen, if (s.reg r.toNat).toInt = 0 then s.setPc a else s⟩ := by
  simp only [exec_eq_of_no_bad_register (exec_jz s r a) (firstBadRegister_one hr), isZero_iff]

/-- JNZ with a register that exists (R153). -/
theorem exec_jnz_of_hasRegister {r : Int} (hr : s.hasRegister r) (a : Int) :
    exec (.jnz r a) ⟨xlen, s⟩ = .next ⟨xlen, if (s.reg r.toNat).toInt = 0 then s else s.setPc a⟩ := by
  rw [exec_eq_of_no_bad_register (exec_jnz s r a) (firstBadRegister_one hr), jumpUnless_eq isZero_iff]

/-- JE with registers that exist (R154). -/
theorem exec_je_of_hasRegister {r q : Int} (hr : s.hasRegister r) (hq : s.hasRegister q) (a : Int) :
    exec (.je r q a) ⟨xlen, s⟩ =
      .next ⟨xlen, if (s.reg r.toNat).toInt = (s.reg q.toNat).toInt then s.setPc a else s⟩ := by
  simp only [exec_eq_of_no_bad_register (exec_je s r q a) (firstBadRegister_two hr hq), isEqual_iff]

/-- JNE with registers that exist (R155). -/
theorem exec_jne_of_hasRegister {r q : Int} (hr : s.hasRegister r) (hq : s.hasRegister q) (a : Int) :
    exec (.jne r q a) ⟨xlen, s⟩ =
      .next ⟨xlen, if (s.reg r.toNat).toInt = (s.reg q.toNat).toInt then s else s.setPc a⟩ := by
  rw [exec_eq_of_no_bad_register (exec_jne s r q a) (firstBadRegister_two hr hq), jumpUnless_eq isEqual_iff]

/-- Settles O19: the `pc` written is `addr` in one more bit, which reads back an `addr` that fits its field. -/
theorem jmpSetsPointer : Obligations.JmpSetsPointer := fun _ s a ha =>
  ⟨⟨_, toInt_ofInt_pc ha, exec_jmp s a⟩, rfl⟩

/-- Settles O20: JZ and JNZ are one check in front of opposite branches on `isZero`. -/
theorem jzJnzTestTheNamedRegister : Obligations.JzJnzTestTheNamedRegister := fun _ s r a ha =>
  ⟨fun hr => ⟨_, toInt_ofInt_pc ha, exec_jz_of_hasRegister hr a, exec_jnz_of_hasRegister hr a⟩,
    reportsBadRegister_of_exec_eq (exec_jz s r a), reportsBadRegister_of_exec_eq (exec_jnz s r a), rfl, rfl⟩

/-- Settles O21: JE and JNE are two checks in front of opposite branches on `isEqual`. -/
theorem jeJneCompareTheNamedRegisters : Obligations.JeJneCompareTheNamedRegisters := fun _ s r q a ha =>
  ⟨fun hr hq => ⟨_, toInt_ofInt_pc ha, exec_je_of_hasRegister hr hq a, exec_jne_of_hasRegister hr hq a⟩,
    reportsBadRegister_of_exec_eq (exec_je s r q a), reportsBadRegister_of_exec_eq (exec_jne s r q a), rfl, rfl⟩

/-- Settles O22: HALT finishes the block, which sets the status and the snapshot and nothing else. -/
theorem haltEndsTheRun : Obligations.HaltEndsTheRun := fun _ s => ⟨exec_halt s, rfl⟩

end Sys2Proof.Machine
end

section
/-! PROOFS. The execution engine (spec/47_execution_engine.md): the step of a fetched instruction through its
class, the end at the loop test, and the guard, whose error nothing else raises because each error has the
code of its raiser (R200). -/

namespace Sys2Proof.Machine

variable {xlen : Nat} {s : Block xlen} {i : Instr} {e : Error}

/-! ## The classes of the post-dispatch update (R175 to R177) -/

theorem dispatchClass_eq_jump_iff :
    dispatchClass i = .jump ↔ (∃ a, i = .jmp a) ∨ (∃ r a, i = .jz r a) ∨ (∃ r a, i = .jnz r a) := by
  cases i <;> simp [dispatchClass]

theorem dispatchClass_eq_halt_iff : dispatchClass i = .halt ↔ i = .halt := by
  cases i <;> simp [dispatchClass]

/-- No update starts or ends a run. -/
@[simp] theorem afterDispatch_status (c : DispatchClass) (s : Block xlen) : (afterDispatch c s).status = s.status := by
  by_cases hs : s.status = .running
  · cases c with
    | counted => rw [afterDispatch_counted hs, Block.advance_status]
    | jump => rw [afterDispatch_jump]
    | halt => rw [afterDispatch_halt]
  · rw [afterDispatch_of_ended hs]

/-- A machine that fetches an instruction runs its rule, then the update of its class (R174). -/
theorem Fetches.step_eq_completeDispatch {w : InstrWord xlen} (h : Fetches s w) (hd : decode w = .instr i) :
    step ⟨xlen, s⟩ = completeDispatch (dispatchClass i) (exec i ⟨xlen, s⟩) := by
  rw [h.step_eq, dispatchWord, hd]

/-- Settles O30: a next state of the instruction is a block of the same width, and the step is that block
after the update of the class, which is the identity except for a counted instruction that goes on. -/
theorem stepRunsTheDecodedInstruction : Obligations.StepRunsTheDecodedInstruction := by
  intro xlen s w i hw hd
  have hstep := hw.step_eq_completeDispatch hd
  refine ⟨fun t ht => ?_, fun f hf => ?_, dispatchClass_eq_jump_iff, dispatchClass_eq_halt_iff⟩
  · obtain ⟨u, rfl, -⟩ := exec_effect ht
    have hnext : step ⟨xlen, s⟩ = .next ⟨xlen, afterDispatch (dispatchClass i) u⟩ := by
      rw [hstep, ht, completeDispatch]
    refine ⟨u, rfl, fun hr hc => ?counted, fun hc => ?jump, fun hc => ?halt, fun hr => ?ended⟩
    case counted => rw [hnext, hc, afterDispatch_counted hr, Block.advance]
    case jump => rw [hnext, hc, afterDispatch_jump]
    case halt => rw [hnext, hc, afterDispatch_halt]
    case ended => rw [hnext, afterDispatch_of_ended hr]
  · rw [hstep, hf, completeDispatch]

/-! ## The loop test (R171) -/

/-- Settles O31: the loop test is the first branch of a running step, and `finish` is its end. -/
theorem pointerPastProgramEndsTheRun : Obligations.PointerPastProgramEndsTheRun := by
  intro xlen s hs hl hp
  rw [step_running hs hl, runningStep_past (by omega), Block.finish]

/-! ## Who raises which error

The table of R200 gives the codes 1 to 5 to the errors of instructions and the codes from 6 to the engine's. -/

theorem Block.fail_injective (s : Block xlen) : Function.Injective s.fail := fun _ _ h =>
  Option.some.inj (congrArg Block.err h)

/-- Machines of one width differ in their blocks only. -/
theorem State.mk_inj {u v : Block xlen} (h : State.mk xlen u = State.mk xlen v) : u = v := by
  cases h
  rfl

theorem next_inj {u v : Block xlen} (h : (.next ⟨xlen, u⟩ : Result) = .next ⟨xlen, v⟩) : u = v :=
  State.mk_inj (Host.Outcome.next.inj h)

/-- The error a check raises is the error the instruction ends with. -/
theorem errorCode_eq_of_next_fail {d : Error}
    (h : (.next ⟨xlen, s.fail d⟩ : Result) = .next ⟨xlen, s.fail e⟩) : errorCode e = errorCode d :=
  congrArg errorCode (s.fail_injective (next_inj h)).symm

/-- A block that has not failed is not the block after an error. -/
theorem next_ne_fail {u : Block xlen} (hu : u.status ≠ .failed) :
    (.next ⟨xlen, u⟩ : Result) ≠ .next ⟨xlen, s.fail e⟩ := fun h =>
  hu (congrArg Block.status (next_inj h))

/-- An instruction that checks registers first raises the error of a bad one, or an error of its own effect. -/
theorem errorCode_le_five_of_exec_eq {rs : List Int} {ok : Result}
    (h : exec i ⟨xlen, s⟩ =
      match firstBadRegister s rs with
      | some q => .next ⟨xlen, s.fail (.registerOutOfBounds q)⟩
      | none => ok)
    (hok : ok = .next ⟨xlen, s.fail e⟩ → errorCode e ≤ 5) (he : exec i ⟨xlen, s⟩ = .next ⟨xlen, s.fail e⟩) :
    errorCode e ≤ 5 := by
  rw [h] at he
  cases hf : firstBadRegister s rs with
  | some q =>
    rw [hf] at he
    exact (errorCode_eq_of_next_fail he).trans_le (by decide : 1 ≤ 5)
  | none =>
    rw [hf] at he
    exact hok he

/-- Behind its registers an instruction may have only blocks that have not failed. -/
theorem errorCode_le_five_of_exec_eq_next {rs : List Int} {u : Block xlen}
    (h : exec i ⟨xlen, s⟩ =
      match firstBadRegister s rs with
      | some q => .next ⟨xlen, s.fail (.registerOutOfBounds q)⟩
      | none => .next ⟨xlen, u⟩)
    (hu : u.status ≠ .failed) (he : exec i ⟨xlen, s⟩ = .next ⟨xlen, s.fail e⟩) : errorCode e ≤ 5 :=
  errorCode_le_five_of_exec_eq h (fun hok => absurd hok (next_ne_fail hu)) he

/-- An address check raises the error of a bad address, or what stands behind it raises. -/
theorem errorCode_le_five_of_checkAddr {a : Int} {k : Nat → Block xlen} (hk : ∀ c, (k c).status ≠ .failed)
    (h : lift (checkAddr s a fun c => .next (k c)) = .next ⟨xlen, s.fail e⟩) : errorCode e ≤ 5 := by
  by_cases ha : s.hasCell a
  · rw [checkAddr_of_hasCell ha, lift] at h
    exact absurd h (next_ne_fail (hk _))
  · rw [checkAddr_of_not ha, lift] at h
    exact (errorCode_eq_of_next_fail h).trans_le (by decide : 2 ≤ 5)

/-- A stack access raises nothing. -/
theorem lift_stackCell_ne_fail {a : Int} {k : Nat → Block xlen} (hk : ∀ c, (k c).status ≠ .failed) :
    lift (stackCell s a fun c => .next (k c)) ≠ .next ⟨xlen, s.fail e⟩ := by
  by_cases ha : s.hasCell a
  · rw [stackCell_of_hasCell ha, lift]
    exact next_ne_fail (hk _)
  · rw [stackCell_of_not ha, lift]
    exact nofun

/-- A branch on a register ends no run. -/
@[simp] theorem ite_setPc_status (c : Bool) (a : Int) : (if c then s.setPc a else s).status = s.status := by
  cases c <;> rfl

/-- On a running machine an instruction raises only the errors the table of R200 gives to instructions. -/
theorem errorCode_le_five_of_exec (hs : s.status = .running) (he : exec i ⟨xlen, s⟩ = .next ⟨xlen, s.fail e⟩) :
    errorCode e ≤ 5 := by
  have hgo : s.status ≠ .failed := by rw [hs]; decide
  cases i with
  | add a b c => exact errorCode_le_five_of_exec_eq_next (exec_add s a b c) hgo he
  | sub a b c => exact errorCode_le_five_of_exec_eq_next (exec_sub s a b c) hgo he
  | mul a b c => exact errorCode_le_five_of_exec_eq_next (exec_mul s a b c) hgo he
  | div a b c =>
    refine errorCode_le_five_of_exec_eq (exec_div s a b c) (fun hok => ?_) he
    split_ifs at hok
    · exact (errorCode_eq_of_next_fail hok).trans_le (by decide)
    · exact absurd hok (next_ne_fail hgo)
  | store r a =>
    exact errorCode_le_five_of_exec_eq (exec_store s r a) (errorCode_le_five_of_checkAddr fun _ => hgo) he
  | load r a =>
    exact errorCode_le_five_of_exec_eq (exec_load s r a) (errorCode_le_five_of_checkAddr fun _ => hgo) he
  | loadImmediate r v => exact errorCode_le_five_of_exec_eq_next (exec_loadImmediate s r v) hgo he
  | push r =>
    refine errorCode_le_five_of_exec_eq (exec_push s r) (fun hok => ?_) he
    split_ifs at hok
    · exact (errorCode_eq_of_next_fail hok).trans_le (by decide)
    · exact absurd hok (lift_stackCell_ne_fail fun _ => hgo)
  | pop r =>
    refine errorCode_le_five_of_exec_eq (exec_pop s r) (fun hok => ?_) he
    split_ifs at hok
    · exact (errorCode_eq_of_next_fail hok).trans_le (by decide)
    · exact absurd hok (lift_stackCell_ne_fail fun _ => hgo)
  | mov a b => exact errorCode_le_five_of_exec_eq_next (exec_mov s a b) hgo he
  | and a b c => exact errorCode_le_five_of_exec_eq_next (exec_and s a b c) hgo he
  | or a b c => exact errorCode_le_five_of_exec_eq_next (exec_or s a b c) hgo he
  | xor a b c => exact errorCode_le_five_of_exec_eq_next (exec_xor s a b c) hgo he
  | shl a b c => exact errorCode_le_five_of_exec_eq_next (exec_shl s a b c) hgo he
  | shr a b c => exact errorCode_le_five_of_exec_eq_next (exec_shr s a b c) hgo he
  | not a b => exact errorCode_le_five_of_exec_eq_next (exec_not s a b) hgo he
  | cmp a b => exact errorCode_le_five_of_exec_eq_next (exec_cmp s a b) hgo he
  | test a b => exact errorCode_le_five_of_exec_eq_next (exec_test s a b) hgo he
  | jmp a => exact absurd (exec_jmp s a ▸ he) (next_ne_fail (u := s.setPc a) hgo)
  | jz r a => exact errorCode_le_five_of_exec_eq_next (exec_jz s r a) (by rwa [ite_setPc_status]) he
  | jnz r a => exact errorCode_le_five_of_exec_eq_next (exec_jnz s r a) (by rwa [ite_setPc_status]) he
  | je a b t => exact errorCode_le_five_of_exec_eq_next (exec_je s a b t) (by rwa [ite_setPc_status]) he
  | jne a b t => exact errorCode_le_five_of_exec_eq_next (exec_jne s a b t) (by rwa [ite_setPc_status]) he
  | halt => exact absurd (exec_halt s ▸ he) (next_ne_fail (by rw [Block.finish_status]; decide))

/-- On a running machine a dispatched word raises an error of its instruction or UnknownOpcode. -/
theorem errorCode_of_dispatchWord (hs : s.status = .running) {w : InstrWord xlen}
    (h : dispatchWord w s = .next ⟨xlen, s.fail e⟩) : errorCode e ≤ 5 ∨ errorCode e = 8 := by
  obtain ⟨v, hv, hcases⟩ := dispatchWord_next h
  obtain rfl : s.fail e = v := State.mk_inj hv
  obtain ⟨i, u, -, hu, hfail⟩ | ⟨op, -, ⟨-, hfail⟩ | ⟨-, hnop⟩⟩ := hcases
  · have hended : u.status = .failed := by
      rw [← afterDispatch_status (dispatchClass i) u, ← hfail, Block.fail_status]
    rw [afterDispatch_of_ended (by rw [hended]; decide)] at hfail
    exact .inl (errorCode_le_five_of_exec hs (hfail ▸ hu))
  · exact .inr (congrArg errorCode (s.fail_injective hfail))
  · exact absurd (congrArg Block.status hnop) (by simp [hs])

/-! ## The guard (R172) -/

/-- Settles O32: of the four ways a step can go on, the end at the loop test has not failed, and the fetch and
the dispatch raise errors of other codes. -/
theorem guardRaisesBeforeTheFetch : Obligations.GuardRaisesBeforeTheFetch := by
  intro xlen s hs hl
  refine ⟨fun h => ?_, fun ⟨hp, hc⟩ => by rw [step_running hs hl, runningStep_limit hp hc, Block.fail]⟩
  change step ⟨xlen, s⟩ = .next ⟨xlen, s.fail .instructionLimitExceeded⟩ at h
  obtain ⟨-, -, u, hu, hcases⟩ := step_next h
  obtain rfl : s.fail .instructionLimitExceeded = u := State.mk_inj hu
  obtain ⟨-, hfinish⟩ | ⟨hp, hc, -⟩ | ⟨-, -, hjump⟩ | ⟨w, -, hword⟩ := hcases
  · exact nomatch congrArg Block.status hfinish
  · exact ⟨hp, hc⟩
  · exact nomatch s.fail_injective hjump
  · exact absurd (errorCode_of_dispatchWord hs hword) (by decide)

end Sys2Proof.Machine
end

section
/-! PROOFS. The snapshot (spec/48_snapshot.md): when a step takes it, by what each part of a step does to the
status and the snapshot register, and what it holds, entry by entry. -/

namespace Sys2Proof.Machine

variable {xlen : Nat} {s u : Block xlen}

/-! ## When it is taken (R190) -/

/-- The block `u` is the normal end of `s`, or it is no normal end and has the snapshot register of `s`. -/
def EndsOrKeepsSnapshot (s u : Block xlen) : Prop :=
  u = s.finish ∨ u.status ≠ .done ∧ u.snapshot = s.snapshot

/-- A block that kept the snapshot register and the status of a running one. -/
theorem endsOrKeepsSnapshot_of_running (hs : s.status = .running) (hst : u.status = s.status)
    (hsnap : u.snapshot = s.snapshot) : EndsOrKeepsSnapshot s u :=
  .inr ⟨by rw [hst, hs]; decide, hsnap⟩

/-- Raising an error takes no snapshot (R212). -/
theorem endsOrKeepsSnapshot_fail (e : Error) : EndsOrKeepsSnapshot s (s.fail e) :=
  .inr ⟨by rw [Block.fail_status]; decide, Block.fail_snapshot ..⟩

/-- Of the effects of an instruction only HALT's takes the snapshot. -/
theorem Effect.endsOrKeepsSnapshot {i : Instr} (hs : s.status = .running) (h : Effect s i u) :
    EndsOrKeepsSnapshot s u := by
  cases h with
  | raised _ e => exact endsOrKeepsSnapshot_fail e
  | halted => exact .inl rfl
  | wrote | stored | pushed | popped | jumped | stayed => exact endsOrKeepsSnapshot_of_running hs rfl rfl

/-- The post-dispatch update takes no snapshot. -/
@[simp] theorem afterDispatch_snapshot (c : DispatchClass) (s : Block xlen) :
    (afterDispatch c s).snapshot = s.snapshot := by
  unfold afterDispatch
  split <;> rfl

/-- The post-dispatch update leaves a normal end as it is, and elsewhere the status and the snapshot register. -/
theorem EndsOrKeepsSnapshot.afterDispatch (h : EndsOrKeepsSnapshot s u) (c : DispatchClass) :
    EndsOrKeepsSnapshot s (afterDispatch c u) := by
  obtain rfl | ⟨hst, hsnap⟩ := h
  · exact .inl (afterDispatch_finish c s)
  · exact .inr (by simp [hst, hsnap])

/-- A dispatched word ends the run normally or takes no snapshot. -/
theorem endsOrKeepsSnapshot_of_dispatchWord (hs : s.status = .running) {w : InstrWord xlen}
    (h : dispatchWord w s = .next ⟨xlen, u⟩) : EndsOrKeepsSnapshot s u := by
  obtain ⟨v, hv, hcases⟩ := dispatchWord_next h
  obtain rfl : u = v := State.mk_inj hv
  obtain ⟨i, b, -, hb, rfl⟩ | ⟨op, -, ⟨-, rfl⟩ | ⟨-, rfl⟩⟩ := hcases
  · obtain ⟨b', hb', heff⟩ := exec_effect hb
    obtain rfl : b = b' := State.mk_inj hb'
    exact (heff.endsOrKeepsSnapshot hs).afterDispatch _
  · exact endsOrKeepsSnapshot_fail _
  · exact endsOrKeepsSnapshot_of_running hs rfl rfl

/-- A step is the normal end of the run, or it is no normal end and takes no snapshot. -/
theorem endsOrKeepsSnapshot_of_step (h : step ⟨xlen, s⟩ = .next ⟨xlen, u⟩) : EndsOrKeepsSnapshot s u := by
  obtain ⟨hs, -, v, hv, hcases⟩ := step_next h
  obtain rfl : u = v := State.mk_inj hv
  obtain ⟨-, rfl⟩ | ⟨-, -, rfl⟩ | ⟨-, -, rfl⟩ | ⟨w, -, hword⟩ := hcases
  · exact .inl rfl
  · exact endsOrKeepsSnapshot_fail _
  · exact endsOrKeepsSnapshot_fail _
  · exact endsOrKeepsSnapshot_of_dispatchWord hs hword

/-- No step follows the end of a run (R170). -/
theorem step_ne_next_of_ended (h : s.status ≠ .running) (t : State) : step ⟨xlen, s⟩ ≠ .next t := fun ht =>
  h (step_next ht).1

/-- Settles O42: a step is the normal end, which takes the snapshot and after which no step follows, or it
sets no DONE and keeps the snapshot register. -/
theorem snapshotIsTakenAtTheNormalEndOnly : Obligations.SnapshotIsTakenAtTheNormalEndOnly := by
  intro xlen s t h
  obtain rfl | ⟨hst, hsnap⟩ := endsOrKeepsSnapshot_of_step h
  · have hended : s.finish.status ≠ .running := by rw [Block.finish_status]; decide
    exact ⟨fun _ => ⟨rfl, step_ne_next_of_ended hended⟩, fun hst => absurd s.finish_status hst⟩
  · exact ⟨fun hdone => absurd hdone hst, fun _ => hsnap⟩

/-! ## What it holds (R191, R192) -/

/-- An existing register is its entry of the register file. -/
theorem Block.regs_getElem? {n : Nat} (h : n < s.numRegisters) : s.regs[n]? = some (s.reg n) := by
  have hn : n < s.regs.length := h
  rw [Block.reg, List.getD_eq_getElem _ _ hn, List.getElem?_eq_getElem hn]

/-- Where `sp` is at most the last cell, the number of live entries is not truncated (R124). -/
theorem Block.stackDepth_cast (h : s.sp.toInt ≤ (s.memorySize : Int) - 1) :
    (s.stackDepth : Int) = s.memorySize - s.sp.toInt - 1 := by
  unfold Block.stackDepth
  omega

@[simp] theorem Block.liveStack_length (s : Block xlen) : s.liveStack.length = s.stackDepth := by
  simp [Block.liveStack]

/-- Entry `k` of the live stack is the cell `k` above the top one, `Mem[sp + 1]`. -/
theorem Block.liveStack_getElem? (h : -1 ≤ s.sp.toInt) {k : Nat} (hk : k < s.stackDepth) :
    s.liveStack[k]? = some (s.cell (s.sp.toInt + 1 + k).toNat) := by
  have haddr : (s.sp.toInt + 1).toNat + k = (s.sp.toInt + 1 + k).toNat := by omega
  rw [Block.liveStack, List.getElem?_map, List.getElem?_range' hk, one_mul, haddr, Option.map_some]

/-- Settles O50: the snapshot is the register file and the live stack. -/
theorem snapshotHoldsRegistersAndLiveStack : Obligations.SnapshotHoldsRegistersAndLiveStack := by
  intro xlen s hlow hhigh
  have hdepth := Block.stackDepth_cast hhigh
  refine ⟨rfl, fun n => Block.regs_getElem?, ?_, fun k hk => Block.liveStack_getElem? hlow (by omega)⟩
  rw [Block.takeSnapshot, Block.liveStack_length, hdepth]

end Sys2Proof.Machine
end

section
/-! PROOFS. Exceptions (spec/60_exceptions.md): RegisterOutOfBounds comes from the check of the used register
fields and from nothing behind it, and a failing step changes what raising changes. -/

namespace Sys2Proof.Machine

variable {xlen : Nat} {s u : Block xlen} {i : Instr}

/-! ## The register error (R201) -/

/-- Different errors leave different machines. -/
theorem next_fail_ne {d e : Error} (h : d ≠ e) : (.next ⟨xlen, s.fail d⟩ : Result) ≠ .next ⟨xlen, s.fail e⟩ :=
  fun heq => h (s.fail_injective (next_inj heq))

/-- An address check in front of a block that has not failed raises its own error only (R53). -/
theorem lift_checkAddr_ne_fail {a : Int} {e : Error} {k : Nat → Block xlen} (hk : ∀ c, (k c).status ≠ .failed)
    (he : .memoryAddressOutOfBounds a ≠ e) :
    lift (checkAddr s a fun c => .next (k c)) ≠ .next ⟨xlen, s.fail e⟩ := by
  by_cases ha : s.hasCell a
  · rw [checkAddr_of_hasCell ha, lift]
    exact next_ne_fail (hk _)
  · rw [checkAddr_of_not ha, lift]
    exact next_fail_ne he

/-- An instruction that checks the registers `rs` first, and raises no register error behind the checks,
reports `r` exactly when `r` is the first bad one. -/
theorem registerError_iff_of_exec_eq {rs : List Int} {ok : Result} {r : Int}
    (h : exec i ⟨xlen, s⟩ =
      match firstBadRegister s rs with
      | some q => .next ⟨xlen, s.fail (.registerOutOfBounds q)⟩
      | none => ok)
    (hok : ok ≠ .next ⟨xlen, s.fail (.registerOutOfBounds r)⟩) :
    exec i ⟨xlen, s⟩ = .next ⟨xlen, s.fail (.registerOutOfBounds r)⟩ ↔ firstBadRegister s rs = some r := by
  refine ⟨fun he => ?_, reportsBadRegister_of_exec_eq h r⟩
  cases hf : firstBadRegister s rs with
  | some q =>
    have hq := reportsBadRegister_of_exec_eq h q hf
    rw [he] at hq
    cases s.fail_injective (next_inj hq)
    rfl
  | none => exact absurd ((exec_eq_of_no_bad_register h hf).symm.trans he) hok

/-- The same where only a block that has not failed stands behind the checks. -/
theorem registerError_iff_of_exec_eq_next {rs : List Int} {r : Int}
    (h : exec i ⟨xlen, s⟩ =
      match firstBadRegister s rs with
      | some q => .next ⟨xlen, s.fail (.registerOutOfBounds q)⟩
      | none => .next ⟨xlen, u⟩)
    (hu : u.status ≠ .failed) :
    exec i ⟨xlen, s⟩ = .next ⟨xlen, s.fail (.registerOutOfBounds r)⟩ ↔ firstBadRegister s rs = some r :=
  registerError_iff_of_exec_eq h (next_ne_fail hu)

/-- Settles O28: each instruction's equation checks `registerFields` first, and behind the checks stand blocks
that have not failed, or errors of other kinds: DIV's divisor, STORE's and LOAD's address, the stack's bounds. -/
theorem everyInstructionChecksTheRegistersItUses : Obligations.EveryInstructionChecksTheRegistersItUses := by
  intro xlen i s r hs
  have hgo : s.status ≠ .failed := by rw [hs]; decide
  cases i with
  | add a b c => exact registerError_iff_of_exec_eq_next (exec_add s a b c) hgo
  | sub a b c => exact registerError_iff_of_exec_eq_next (exec_sub s a b c) hgo
  | mul a b c => exact registerError_iff_of_exec_eq_next (exec_mul s a b c) hgo
  | div a b c =>
    refine registerError_iff_of_exec_eq (exec_div s a b c) ?_
    split_ifs
    · exact next_fail_ne nofun
    · exact next_ne_fail hgo
  | store q a =>
    exact registerError_iff_of_exec_eq (exec_store s q a) (lift_checkAddr_ne_fail (fun _ => hgo) nofun)
  | load q a =>
    exact registerError_iff_of_exec_eq (exec_load s q a) (lift_checkAddr_ne_fail (fun _ => hgo) nofun)
  | loadImmediate q v => exact registerError_iff_of_exec_eq_next (exec_loadImmediate s q v) hgo
  | push q =>
    refine registerError_iff_of_exec_eq (exec_push s q) ?_
    split_ifs
    · exact next_fail_ne nofun
    · exact lift_stackCell_ne_fail fun _ => hgo
  | pop q =>
    refine registerError_iff_of_exec_eq (exec_pop s q) ?_
    split_ifs
    · exact next_fail_ne nofun
    · exact lift_stackCell_ne_fail fun _ => hgo
  | mov a b => exact registerError_iff_of_exec_eq_next (exec_mov s a b) hgo
  | and a b c => exact registerError_iff_of_exec_eq_next (exec_and s a b c) hgo
  | or a b c => exact registerError_iff_of_exec_eq_next (exec_or s a b c) hgo
  | xor a b c => exact registerError_iff_of_exec_eq_next (exec_xor s a b c) hgo
  | shl a b c => exact registerError_iff_of_exec_eq_next (exec_shl s a b c) hgo
  | shr a b c => exact registerError_iff_of_exec_eq_next (exec_shr s a b c) hgo
  | not a b => exact registerError_iff_of_exec_eq_next (exec_not s a b) hgo
  | cmp a b => exact registerError_iff_of_exec_eq_next (exec_cmp s a b) hgo
  | test a b => exact registerError_iff_of_exec_eq_next (exec_test s a b) hgo
  | jmp a => exact registerError_iff_of_exec_eq_next (rs := []) (u := s.setPc a) (exec_jmp s a) hgo
  | jz q a => exact registerError_iff_of_exec_eq_next (exec_jz s q a) (by rwa [ite_setPc_status])
  | jnz q a => exact registerError_iff_of_exec_eq_next (exec_jnz s q a) (by rwa [ite_setPc_status])
  | je a b t => exact registerError_iff_of_exec_eq_next (exec_je s a b t) (by rwa [ite_setPc_status])
  | jne a b t => exact registerError_iff_of_exec_eq_next (exec_jne s a b t) (by rwa [ite_setPc_status])
  | halt =>
    exact registerError_iff_of_exec_eq_next (rs := []) (exec_halt s) (by rw [Block.finish_status]; decide)

/-! ## What a failing step changes (R212) -/

/-- Of the effects of an instruction on a running machine only raising fails. -/
theorem Effect.eq_fail_of_failed (hs : s.status = .running) (h : Effect s i u) (hu : u.status = .failed) :
    ∃ e, u = s.fail e := by
  cases h with
  | raised _ e => exact ⟨e, rfl⟩
  | halted => exact nomatch hu
  | wrote | stored | pushed | popped | jumped | stayed => exact nomatch hs.symm.trans hu

/-- A dispatched word that fails has raised an error: the update of the class neither fails a run nor touches
a failed one. -/
theorem eq_fail_of_dispatchWord (hs : s.status = .running) {w : InstrWord xlen}
    (h : dispatchWord w s = .next ⟨xlen, u⟩) (hu : u.status = .failed) : ∃ e, u = s.fail e := by
  obtain ⟨v, hv, hcases⟩ := dispatchWord_next h
  obtain rfl : u = v := State.mk_inj hv
  obtain ⟨i, b, -, hb, rfl⟩ | ⟨op, -, ⟨-, rfl⟩ | ⟨-, rfl⟩⟩ := hcases
  · obtain ⟨b', hb', heff⟩ := exec_effect hb
    obtain rfl : b = b' := State.mk_inj hb'
    rw [afterDispatch_status] at hu
    obtain ⟨e, rfl⟩ := heff.eq_fail_of_failed hs hu
    exact ⟨e, afterDispatch_fail _ s e⟩
  · exact ⟨_, rfl⟩
  · exact nomatch hs.symm.trans hu

/-- A step that fails has raised an error, in the guard, the fetch or the dispatch. -/
theorem eq_fail_of_step (h : step ⟨xlen, s⟩ = .next ⟨xlen, u⟩) (hu : u.status = .failed) : ∃ e, u = s.fail e := by
  obtain ⟨hs, -, v, hv, hcases⟩ := step_next h
  obtain rfl : u = v := State.mk_inj hv
  obtain ⟨-, rfl⟩ | ⟨-, -, rfl⟩ | ⟨-, -, rfl⟩ | ⟨w, -, hword⟩ := hcases
  · exact nomatch hu
  · exact ⟨_, rfl⟩
  · exact ⟨_, rfl⟩
  · exact eq_fail_of_dispatchWord hs hword hu

/-- Settles O41: a failing step raised an error, and a machine that has failed takes no step. -/
theorem failedStepChangesOnlyStatusAndErr : Obligations.FailedStepChangesOnlyStatusAndErr := by
  intro xlen s t h ht
  have hended : t.status ≠ .running := by rw [ht]; decide
  exact ⟨eq_fail_of_step h ht, step_ne_next_of_ended hended⟩

end Sys2Proof.Machine
end

section
/-! PROOFS. The instruction word in both directions (spec/30_encoding.md): splitting a joined word gives its
fields back, a word is the join of its fields, and the opcode field alone decides between the instructions. -/

namespace Sys2Proof

variable {xlen : Nat} {i : Instr}

/-! ## Fields that an instruction word can hold (R72) -/

/-- Every operand fits its field; the opcode is not asked to. -/
def Fields.OperandsFit (xlen : Nat) (f : Fields) : Prop :=
  inField xlen f.reg1 = true ∧ inField xlen f.reg2 = true ∧ inField xlen f.reg3 = true ∧
    inField xlen f.addr = true ∧ inField xlen f.immediate = true

theorem inField_zero (hx : 1 ≤ xlen) : inField xlen 0 = true := by
  have : (0 : Int) < 2 ^ (xlen - 1) := by positivity
  exact inField_iff.2 ⟨hx, by omega, by omega⟩

/-- An instruction is well formed exactly when its six-tuple fits, because the fields it does not use are 0. -/
theorem wellFormed_iff_operandsFit (hx : 1 ≤ xlen) : WellFormed xlen i ↔ (fieldsOf i).OperandsFit xlen := by
  cases i <;> simp [WellFormed, Instr.wf, fieldsOf, Fields.OperandsFit, inField_zero hx, and_assoc]

/-- The fields of any word fit. -/
theorem splitWord_operandsFit (hx : 1 ≤ xlen) (w : InstrWord xlen) : (splitWord w).OperandsFit xlen :=
  ⟨inField_fieldAt hx w 4, inField_fieldAt hx w 3, inField_fieldAt hx w 2, inField_fieldAt hx w 1,
    inField_fieldAt hx w 0⟩

/-! ## Splitting and joining (R73) -/

/-- Splitting a joined word gives fields that fit back. -/
theorem splitWord_joinFields {f : Fields} (hop : inField xlen f.opcode = true) (hf : f.OperandsFit xlen) :
    splitWord (joinFields xlen f) = f := by
  obtain ⟨h1, h2, h3, ha, hi⟩ := hf
  simp only [splitWord, fieldAt_join_opcode, fieldAt_join_reg1, fieldAt_join_reg2, fieldAt_join_reg3,
    fieldAt_join_addr, fieldAt_join_immediate, toInt_ofInt_inField, hop, h1, h2, h3, ha, hi]

/-- A word is determined by its fields. -/
theorem splitWord_injective : Function.Injective (splitWord (xlen := xlen)) := by
  intro w v h
  obtain ⟨h5, h4, h3, h2, h1, h0⟩ := Fields.mk.inj h
  refine word_ext fun k hk => ?_
  interval_cases k <;> assumption

/-- The word of a well-formed instruction holds its six-tuple. -/
theorem splitWord_encode (hop : inField xlen i.opcode = true) (hwf : WellFormed xlen i) :
    splitWord (encode xlen i) = fieldsOf i := by
  obtain ⟨hx, -⟩ := inField_iff.1 hop
  exact splitWord_joinFields (fieldsOf_opcode i ▸ hop) ((wellFormed_iff_operandsFit hx).1 hwf)

/-- Settles O56: the word holds the instruction's fields, which select the instruction. -/
theorem decodeOfEncodeIsIdentity : Obligations.DecodeOfEncodeIsIdentity := by
  intro xlen i hwf hop
  rw [decode, splitWord_encode hop hwf, decodeFields_fieldsOf]

/-! ## From the word to the instruction and back -/

theorem wellFormed_of_decode (hx : 1 ≤ xlen) {w : InstrWord xlen} (h : decode w = .instr i) : WellFormed xlen i := by
  rw [wellFormed_iff_operandsFit hx, ← decode_eq_instr_iff.1 h]
  exact splitWord_operandsFit hx _

/-- The opcode of a selected instruction is the opcode field. -/
theorem opcode_of_decodeFields {f : Fields} (h : decodeFields f = .instr i) : i.opcode = f.opcode := by
  rw [← fieldsOf_opcode, ← decodeFields_eq_instr_iff.1 h, Fields.keepUsed]

/-- Settles O57: both words split into the instruction's six-tuple. -/
theorem encodeOfDecodeKeepsTheUsedBits : Obligations.EncodeOfDecodeKeepsTheUsedBits := by
  intro xlen w i hx h
  have hwf := wellFormed_of_decode hx h
  have hop : inField xlen i.opcode = true := by
    rw [opcode_of_decodeFields h]
    exact inField_fieldAt hx w 5
  refine ⟨hwf, splitWord_injective ?_⟩
  rw [splitWord_encode hop hwf, decode_eq_instr_iff.1 h]

/-! ## Match and mask (R76, R78, R79) -/

/-- The opcodes of R78 are 0 to 23. -/
theorem opcode_range (i : Instr) : 0 ≤ i.opcode ∧ i.opcode ≤ 23 := by
  cases i <;> simp [Instr.opcode]

/-- Fields that select no instruction hold an opcode outside 0 to 23. -/
theorem opcode_of_decodeFields_eq_unknownOpcode {f : Fields} {op : Int} (h : decodeFields f = .unknownOpcode op) :
    f.opcode = op ∧ (op < 0 ∨ op > 23) := by
  unfold decodeFields at h
  split at h <;> cases h
  refine ⟨rfl, ?_⟩
  simp only [imp_false] at *
  omega

theorem decodeFields_eq_unknownOpcode_iff {f : Fields} {op : Int} :
    decodeFields f = .unknownOpcode op ↔ f.opcode = op ∧ (op < 0 ∨ op > 23) := by
  refine ⟨opcode_of_decodeFields_eq_unknownOpcode, ?_⟩
  rintro ⟨rfl, hout⟩
  cases h : decodeFields f with
  | instr i =>
    have hop := opcode_of_decodeFields h
    have := opcode_range i
    omega
  | unknownOpcode op => rw [(opcode_of_decodeFields_eq_unknownOpcode h).1]

/-- An opcode field in 0 to 23 selects an instruction of that opcode, and no other field does. -/
theorem exists_decode_opcode_iff {w : InstrWord xlen} {k : Int} (h0 : 0 ≤ k) (h23 : k ≤ 23) :
    (∃ i, decode w = .instr i ∧ i.opcode = k) ↔ fieldAt w 5 = k := by
  constructor
  · rintro ⟨i, h, rfl⟩
    exact (opcode_of_decodeFields h).symm
  · intro hop
    cases h : decode w with
    | instr i => exact ⟨i, rfl, (opcode_of_decodeFields h).trans hop⟩
    | unknownOpcode op =>
      obtain ⟨hfield, hout⟩ := opcode_of_decodeFields_eq_unknownOpcode h
      have : fieldAt w 5 = op := hfield
      omega

/-- A word with one field laid in it reads that field there and 0 elsewhere. -/
theorem fieldAt_placeField {j k : Nat} {z : Int} (hj : j < 6) (hz : inField xlen z = true) :
    fieldAt (placeField xlen k z) j = if j = k then z else 0 := by
  rw [fieldAt, extract_placeField z hj]
  split_ifs
  · exact toInt_ofInt_inField hz
  · exact BitVec.toInt_zero

/-- The mask of the opcode field keeps that field and reads 0 in the others. -/
theorem fieldAt_and_opcodeMask (w : InstrWord xlen) {j : Nat} (hj : j < 6) :
    fieldAt (w &&& fieldMask xlen 5) j = if j = 5 then fieldAt w j else 0 := by
  have hmask : fieldMask xlen 5 = usedBits xlen .n := by simp [usedBits, usedFields]
  rw [hmask, fieldAt_and_usedBits w .n hj]
  simp [usedFields]

/-- A word under the opcode's mask is `z` in that field exactly when its opcode field is `z`. -/
theorem and_opcodeMask_eq_placeField_iff {w : InstrWord xlen} {z : Int} (hz : inField xlen z = true) :
    w &&& fieldMask xlen 5 = placeField xlen 5 z ↔ fieldAt w 5 = z := by
  constructor
  · intro h
    simpa [fieldAt_and_opcodeMask, fieldAt_placeField, hz] using congrArg (fieldAt · 5) h
  · rintro rfl
    refine word_ext fun j hj => ?_
    rw [fieldAt_and_opcodeMask w hj, fieldAt_placeField hj hz]
    split_ifs with h
    · rw [h]
    · rfl

/-- The number of an opcode that fits its field, laid there bit by bit. -/
theorem ofNat_shiftLeft_eq_placeField {k n : Nat} (hk : inField xlen k = true) :
    BitVec.ofNat (6 * xlen) k <<< (n * xlen) = placeField xlen n k := by
  obtain ⟨hx, -, hle⟩ := inField_iff.1 hk
  have hlt : k < 2 ^ xlen := by
    have := two_pow_pred hx
    have : (k : Int) < (2 ^ xlen : Nat) := by push_cast; omega
    exact_mod_cast this
  rw [placeField, BitVec.ofInt_natCast, BitVec.setWidth_ofNat_of_le_of_lt (by omega) hlt]

/-- Settles O59: the masked word is the opcode's number in the opcode field exactly when the field reads it,
and the field decides between the instructions and "unknown opcode". -/
theorem opcodeFieldSelectsTheInstruction : Obligations.OpcodeFieldSelectsTheInstruction := by
  refine ⟨fun xlen w => ⟨fun k hk hfit => ?_, fun op => decodeFields_eq_unknownOpcode_iff⟩, by decide⟩
  rw [ofNat_shiftLeft_eq_placeField hfit, and_opcodeMask_eq_placeField_iff hfit,
    exists_decode_opcode_iff (by omega) (by omega)]

/-- Settles O60: `decode` computes on the nine words. -/
theorem writtenOutWordsDecode : Obligations.WrittenOutWordsDecode := by
  unfold Obligations.WrittenOutWordsDecode
  decide

end Sys2Proof
end

section
/-! PROOFS. The frames (spec/10_state.md): what each of the effects of `exec_effect` leaves unchanged. -/

namespace Sys2Proof.Machine

variable {xlen : Nat} {s u : Block xlen} {i : Instr}

/-! ## Effect by effect -/

theorem Effect.numRegisters (h : Effect s i u) : u.numRegisters = s.numRegisters := by
  cases h with
  | wrote | popped => exact Block.setReg_numRegisters ..
  | raised | stored | pushed | jumped | stayed | halted => rfl

/-- Every register but the one R22's table says it writes. -/
theorem Effect.reg_eq (h : Effect s i u) {n : Nat} (hn : writtenRegister i ≠ some (n : Int)) : u.reg n = s.reg n := by
  cases h with
  | wrote _ d _ _ hw hd =>
    have hne : n ≠ d.toNat := by
      rintro rfl
      exact hn (by rw [hw, Int.toNat_of_nonneg hd.1])
    exact Block.reg_setReg_ne _ hne _
  | popped d hd =>
    have hne : n ≠ d.toNat := by
      rintro rfl
      exact hn (by rw [writtenRegister, Int.toNat_of_nonneg hd.1])
    exact Block.reg_setReg_ne _ hne _
  | raised | stored | pushed | jumped | stayed | halted => rfl

/-- Every cell but the one STORE and PUSH name. -/
theorem Effect.cell_eq (h : Effect s i u) {a : Nat} (ha : storedCell i s ≠ some (a : Int)) : u.cell a = s.cell a := by
  cases h with
  | stored r c hc =>
    have hne : a ≠ c.toNat := by
      rintro rfl
      exact ha (by rw [storedCell, Int.toNat_of_nonneg hc.1])
    exact Block.cell_setCell_ne s hne _
  | pushed r hc =>
    have hne : a ≠ s.sp.toInt.toNat := by
      rintro rfl
      exact ha (by rw [storedCell, Int.toNat_of_nonneg hc.1])
    exact Block.cell_setCell_ne s hne _
  | raised | wrote | popped | jumped | stayed | halted => rfl

theorem Effect.inputs (h : Effect s i u) : u.inputs = s.inputs := by
  cases h with
  | wrote | popped => exact Block.setReg_inputs ..
  | raised | stored | pushed | jumped | stayed | halted => rfl

theorem Effect.icount (h : Effect s i u) : u.icount = s.icount := by
  cases h <;> rfl

theorem Effect.sp (h : Effect s i u) (hi : ∀ r, i ≠ .push r ∧ i ≠ .pop r) : u.sp = s.sp := by
  cases h with
  | pushed r => exact absurd rfl (hi r).1
  | popped r => exact absurd rfl (hi r).2
  | raised | wrote | stored | jumped | stayed | halted => rfl

/-- `pc` keeps its value or becomes the target of a jump. -/
theorem Effect.pc (h : Effect s i u) :
    u.pc = s.pc ∨ ∃ a, jumpTarget i = some a ∧ u.pc = BitVec.ofInt (xlen + 1) a := by
  cases h with
  | jumped _ a hi => exact .inr ⟨a, hi, rfl⟩
  | raised | wrote | stored | pushed | popped | stayed | halted => exact .inl rfl

/-- A running block goes on, has raised, or is HALT's. -/
theorem Effect.status (h : Effect s i u) :
    (u.status = s.status ∧ u.err = s.err ∧ u.snapshot = s.snapshot) ∨ (∃ e, u = s.fail e) ∨
      (i = .halt ∧ u = s.finish) := by
  cases h with
  | raised _ e => exact .inr (.inl ⟨e, rfl⟩)
  | halted => exact .inr (.inr ⟨rfl, rfl⟩)
  | wrote | stored | pushed | popped | jumped | stayed => exact .inl ⟨rfl, rfl, rfl⟩

/-- An instruction that names a target is one of the five jumps. -/
theorem jumpTarget_eq_none
    (hi : ∀ a r q, i ≠ .jmp a ∧ i ≠ .jz r a ∧ i ≠ .jnz r a ∧ i ≠ .je r q a ∧ i ≠ .jne r q a) :
    jumpTarget i = none := by
  cases i <;> simp_all [jumpTarget]

/-! ## The statements -/

/-- Settles O23: the registers' frame of each effect. -/
theorem onlyTheWrittenRegisterChanges : Obligations.OnlyTheWrittenRegisterChanges := by
  intro xlen i s t h
  obtain ⟨u, rfl, heff⟩ := exec_effect h
  exact ⟨u, rfl, heff.numRegisters, fun n => heff.reg_eq⟩

/-- Settles O24: the memory's frame of each effect. -/
theorem onlyTheStoredCellChanges : Obligations.OnlyTheStoredCellChanges := by
  intro xlen i s t h
  obtain ⟨u, rfl, heff⟩ := exec_effect h
  exact ⟨u, rfl, fun a => heff.cell_eq⟩

/-- Settles O25: the frame of the rest of the state; `finish` leaves `err` alone. -/
theorem otherStateChangesOnlyAsNamed : Obligations.OtherStateChangesOnlyAsNamed := by
  intro xlen i s t h
  obtain ⟨u, rfl, heff⟩ := exec_effect h
  refine ⟨u, rfl, heff.inputs, heff.icount, heff.sp, fun hi => ?pc, ?status⟩
  case pc =>
    obtain hpc | ⟨a, ha, -⟩ := heff.pc
    · exact hpc
    · exact absurd ha (by simp [jumpTarget_eq_none hi])
  case status =>
    obtain hkept | hraised | ⟨hhalt, rfl⟩ := heff.status
    · exact .inl hkept
    · exact .inr (.inl hraised)
    · exact .inr (.inr ⟨hhalt, s.finish_err⟩)

/-! ## The run inputs along a step (R32) -/

@[simp] theorem afterDispatch_inputs (c : DispatchClass) (s : Block xlen) :
    (afterDispatch c s).inputs = s.inputs := by
  unfold afterDispatch
  split <;> rfl

/-- A dispatched instruction is its effect, then the update of its class; other words raise or advance. -/
theorem dispatchWord_effect {w : InstrWord xlen} (h : dispatchWord w s = .next ⟨xlen, u⟩) :
    (∃ i b, decode w = .instr i ∧ Effect s i b ∧ u = afterDispatch (dispatchClass i) b) ∨
    (∃ op, decode w = .unknownOpcode op ∧ (u = s.fail (.unknownOpcode op) ∨ u = s.advance)) := by
  obtain ⟨v, hv, hcases⟩ := dispatchWord_next h
  obtain rfl : u = v := State.mk_inj hv
  obtain ⟨i, b, hd, hb, rfl⟩ | ⟨op, hd, ⟨-, rfl⟩ | ⟨-, rfl⟩⟩ := hcases
  · obtain ⟨b', hb', heff⟩ := exec_effect hb
    obtain rfl : b = b' := State.mk_inj hb'
    exact .inl ⟨i, b, hd, heff, rfl⟩
  · exact .inr ⟨op, hd, .inl rfl⟩
  · exact .inr ⟨op, hd, .inr rfl⟩

theorem step_inputs (h : step ⟨xlen, s⟩ = .next ⟨xlen, u⟩) : u.inputs = s.inputs := by
  obtain ⟨-, -, v, hv, hcases⟩ := step_next h
  obtain rfl : u = v := State.mk_inj hv
  obtain ⟨-, rfl⟩ | ⟨-, -, rfl⟩ | ⟨-, -, rfl⟩ | ⟨w, -, hword⟩ := hcases
  · rfl
  · rfl
  · rfl
  · obtain ⟨i, b, -, heff, rfl⟩ | ⟨op, -, rfl | rfl⟩ := dispatchWord_effect hword
    · rw [afterDispatch_inputs, heff.inputs]
    · rfl
    · rfl

/-- Blocks of one width have the same inputs when each input is the same. -/
theorem Block.inputs_eq_iff : u.inputs = s.inputs ↔
    u.numRegisters = s.numRegisters ∧ u.memorySize = s.memorySize ∧
    u.maxInstructionCount = s.maxInstructionCount ∧ u.unknownOpcodePolicy = s.unknownOpcodePolicy ∧
    u.program = s.program := by
  simp [Block.inputs]

/-- Settles O43: a step keeps the width and the inputs. -/
theorem stepKeepsTheRunInputs : Obligations.StepKeepsTheRunInputs := by
  intro xlen s t h
  obtain ⟨-, -, u, rfl, -⟩ := step_next h
  exact ⟨u, rfl, Block.inputs_eq_iff.1 (step_inputs h)⟩

end Sys2Proof.Machine
end

section
/-! PROOFS. One equation for all instructions: `exec` is the check of the register fields in front of the
instruction's own effect (R12, R23). From it follow which errors an instruction raises (R200) and what it
cannot read (R22, R38). -/

namespace Sys2Proof.Machine

variable {xlen : Nat} {s u : Block xlen} {i : Instr} {e : Error}

/-! ## `exec` as a check and an effect -/

/-- The error of the first bad register among `rs`, or else `r` (R23, R214). -/
def checkedThen (s : Block xlen) (rs : List Int) (r : BlockResult xlen) : BlockResult xlen :=
  match firstBadRegister s rs with
  | some q => raise s (.registerOutOfBounds q)
  | none => r

theorem checkedThen_of_bad {rs : List Int} {q : Int} (h : firstBadRegister s rs = some q) (r : BlockResult xlen) :
    checkedThen s rs r = .next (s.fail (.registerOutOfBounds q)) := by
  rw [checkedThen, h]
  rfl

theorem checkedThen_of_none {rs : List Int} (h : firstBadRegister s rs = none) (r : BlockResult xlen) :
    checkedThen s rs r = r := by
  rw [checkedThen, h]

/-- What stands behind the register checks of an instruction. -/
def ownEffect (i : Instr) (s : Block xlen) : BlockResult xlen :=
  match i with
  | .add a b d => .next (s.setReg d.toNat (addResult (s.reg a.toNat) (s.reg b.toNat)))
  | .sub a b d => .next (s.setReg d.toNat (subResult (s.reg a.toNat) (s.reg b.toNat)))
  | .mul a b d => .next (s.setReg d.toNat (mulResult (s.reg a.toNat) (s.reg b.toNat)))
  | .div a b d =>
    if s.reg b.toNat = 0 then raise s .divisionByZero
    else .next (s.setReg d.toNat (divResult (s.reg a.toNat) (s.reg b.toNat)))
  | .store r a => checkAddr s a fun c => .next (s.setCell c (s.reg r.toNat))
  | .load r a => checkAddr s a fun c => .next (s.setReg r.toNat (s.cell c))
  | .loadImmediate r v => .next (s.setReg r.toNat (BitVec.ofInt xlen v))
  | .push r =>
    if s.sp.toInt < 0 then raise s .stackOverflow
    else stackCell s s.sp.toInt fun c => .next ((s.setCell c (s.reg r.toNat)).setSp (s.sp - 1))
  | .pop r =>
    if s.sp.toInt ≥ (s.memorySize : Int) - 1 then raise s .stackUnderflow
    else stackCell s (s.sp.toInt + 1) fun c => .next ((s.setSp (s.sp + 1)).setReg r.toNat (s.cell c))
  | .mov d a => .next (s.setReg d.toNat (s.reg a.toNat))
  | .and a b d => .next (s.setReg d.toNat (andResult (s.reg a.toNat) (s.reg b.toNat)))
  | .or a b d => .next (s.setReg d.toNat (orResult (s.reg a.toNat) (s.reg b.toNat)))
  | .xor a b d => .next (s.setReg d.toNat (xorResult (s.reg a.toNat) (s.reg b.toNat)))
  | .shl a b d => .next (s.setReg d.toNat (shlResult (s.reg a.toNat) (s.reg b.toNat)))
  | .shr a b d => .next (s.setReg d.toNat (shrResult (s.reg a.toNat) (s.reg b.toNat)))
  | .not a d => .next (s.setReg d.toNat (notResult (s.reg a.toNat)))
  | .cmp a b => .next (s.setReg 0 (cmpResult (s.reg a.toNat) (s.reg b.toNat)))
  | .test a b => .next (s.setReg 0 (testResult (s.reg a.toNat) (s.reg b.toNat)))
  | .jmp t => .next (s.setPc t)
  | .jz r t => jumpIf (isZero (s.reg r.toNat)) t s
  | .jnz r t => jumpIf (!isZero (s.reg r.toNat)) t s
  | .je a b t => jumpIf (isEqual (s.reg a.toNat) (s.reg b.toNat)) t s
  | .jne a b t => jumpIf (!isEqual (s.reg a.toNat) (s.reg b.toNat)) t s
  | .halt => .next s.finish

/-- Every instruction checks the register fields it uses, in field order, and then has its own effect. -/
theorem exec_eq_checkedThen (i : Instr) (s : Block xlen) :
    exec i ⟨xlen, s⟩ = lift (checkedThen s (registerFields i) (ownEffect i s)) := by
  cases i with
  | add | sub | mul | div | and | or | xor | shl | shr => exact congrArg lift (operandsRRR_eq ..)
  | store | load => exact congrArg lift (operandsRegCell_eq ..)
  | loadImmediate => exact congrArg lift (operandsRI_eq ..)
  | push | pop | jz | jnz => exact congrArg lift (operandsR_eq ..)
  | mov | not | cmp | test | je | jne => exact congrArg lift (operandsRR_eq ..)
  | jmp | halt => rfl

/-! ## Which errors an instruction raises (R200) -/

/-- A next block of the machine is a next block of the operation. -/
theorem eq_next_of_lift_eq {r : BlockResult xlen} (h : lift r = .next ⟨xlen, u⟩) : r = .next u := by
  obtain ⟨v, rfl, hv⟩ := lift_next h
  rw [State.mk_inj hv]

/-- Behind its register checks an instruction raises the errors of the table of R200, each under its
condition. -/
theorem ownEffect_eq_fail (hs : s.status = .running) (h : ownEffect i s = .next (s.fail e)) :
    (∃ r a, e = .memoryAddressOutOfBounds a ∧ (i = .store r a ∨ i = .load r a) ∧ ¬ s.hasCell a) ∨
    (e = .divisionByZero ∧ ∃ a b c, i = .div a b c ∧ (s.reg b.toNat).toInt = 0) ∨
    (e = .stackOverflow ∧ ∃ r, i = .push r ∧ s.sp.toInt < 0) ∨
    (e = .stackUnderflow ∧ ∃ r, i = .pop r ∧ s.sp.toInt ≥ (s.memorySize : Int) - 1) := by
  have hgo {v : Block xlen} (hv : v.status = s.status) : (.next v : BlockResult xlen) ≠ .next (s.fail e) := fun heq =>
    nomatch (hs.symm.trans hv.symm).trans (congrArg Block.status (Host.Outcome.next.inj heq))
  have hraise {d : Error} (heq : raise s d = .next (s.fail e)) : e = d :=
    (s.fail_injective (Host.Outcome.next.inj heq)).symm
  cases i with
  | store r a =>
    rw [ownEffect] at h
    obtain ⟨ha, he⟩ | ⟨-, hnext⟩ := checkAddr_next h
    · exact .inl ⟨r, a, s.fail_injective he, .inl rfl, ha⟩
    · exact absurd hnext (hgo rfl)
  | load r a =>
    rw [ownEffect] at h
    obtain ⟨ha, he⟩ | ⟨-, hnext⟩ := checkAddr_next h
    · exact .inl ⟨r, a, s.fail_injective he, .inr rfl, ha⟩
    · exact absurd hnext (hgo rfl)
  | div a b c =>
    rw [ownEffect] at h
    split_ifs at h with hzero
    · exact .inr (.inl ⟨hraise h, a, b, c, rfl, toInt_eq_zero.2 hzero⟩)
    · exact absurd h (hgo rfl)
  | push r =>
    rw [ownEffect] at h
    split_ifs at h with hfull
    · exact .inr (.inr (.inl ⟨hraise h, r, rfl, hfull⟩))
    · exact absurd (stackCell_next h).2 (hgo rfl)
  | pop r =>
    rw [ownEffect] at h
    split_ifs at h with hempty
    · exact .inr (.inr (.inr ⟨hraise h, r, rfl, hempty⟩))
    · exact absurd (stackCell_next h).2 (hgo rfl)
  | jz | jnz | je | jne => exact absurd h (hgo (ite_setPc_status ..))
  | halt => exact nomatch congrArg Block.status (Host.Outcome.next.inj h)
  | add | sub | mul | and | or | xor | shl | shr | loadImmediate | mov | not | cmp | test | jmp =>
    exact absurd h (hgo rfl)

/-- Settles O29: an error is that of the first bad register, or it is raised behind the register checks. -/
theorem eachErrorHasItsInstructionAndCondition : Obligations.EachErrorHasItsInstructionAndCondition := by
  intro xlen i s e hs h
  rw [exec_eq_checkedThen] at h
  have hblock := eq_next_of_lift_eq h
  cases hf : firstBadRegister s (registerFields i) with
  | some r =>
    rw [checkedThen_of_bad hf] at hblock
    exact .inl ⟨r, (s.fail_injective (Host.Outcome.next.inj hblock)).symm, rfl⟩
  | none =>
    rw [checkedThen_of_none hf] at hblock
    exact .inr (ownEffect_eq_fail hs hblock)

/-! ## What an instruction cannot read (R22, R38) -/

/-- The block after a result that goes on, changed by `g`. -/
def mapBlock (g : Block xlen → Block xlen) : BlockResult xlen → BlockResult xlen
  | .next t => .next (g t)
  | .fault f => .fault f
  | .refused r => .refused r

theorem mapNext_lift (f : (n : Nat) → Block n → Block n) (r : BlockResult xlen) :
    mapNext f (lift r) = lift (mapBlock (f xlen) r) := by
  cases r <;> rfl

/-- The change `g` of a block is out of sight of instruction `i`: it leaves alone what `i` reads, and it
commutes with every update that `i` can make. -/
structure HiddenFrom (g : Block xlen → Block xlen) (i : Instr) : Prop where
  numRegisters : ∀ t, (g t).numRegisters = t.numRegisters
  memorySize : ∀ t, (g t).memorySize = t.memorySize
  memory : ∀ t, (g t).memory = t.memory
  sp : ∀ t, (g t).sp = t.sp
  read : ∀ t, ∀ r ∈ readRegisters i, t.hasRegister r → (g t).reg r.toNat = t.reg r.toNat
  fail : ∀ t e, (g t).fail e = g (t.fail e)
  setReg : ∀ t r v, writtenRegister i = some r → 0 ≤ r → (g t).setReg r.toNat v = g (t.setReg r.toNat v)
  setCell : ∀ t a v, (g t).setCell a v = g (t.setCell a v)
  setSp : ∀ t v, (g t).setSp v = g (t.setSp v)
  setPc : ∀ t a, (g t).setPc a = g (t.setPc a)
  finish : i = .halt → ∀ t, (g t).finish = g t.finish

variable {g : Block xlen → Block xlen}

theorem HiddenFrom.firstBadRegister (h : HiddenFrom g i) (s : Block xlen) (rs : List Int) :
    firstBadRegister (g s) rs = firstBadRegister s rs := by
  simp only [Machine.firstBadRegister, h.numRegisters]

theorem HiddenFrom.checkAddr (h : HiddenFrom g i) {a : Int} {k k' : Nat → BlockResult xlen}
    (hk : ∀ c, k' c = mapBlock g (k c)) : checkAddr (g s) a k' = mapBlock g (checkAddr s a k) := by
  rw [Machine.checkAddr, Machine.checkAddr, h.memorySize, hk, raise, h.fail]
  split_ifs <;> rfl

theorem HiddenFrom.stackCell (h : HiddenFrom g i) {a : Int} {k k' : Nat → BlockResult xlen}
    (hk : ∀ c, k' c = mapBlock g (k c)) : stackCell (g s) a k' = mapBlock g (stackCell s a k) := by
  rw [Machine.stackCell, Machine.stackCell, h.memorySize, hk]
  split_ifs <;> rfl

theorem HiddenFrom.jumpIf (h : HiddenFrom g i) (c : Bool) (a : Int) :
    jumpIf c a (g s) = mapBlock g (jumpIf c a s) := by
  cases c
  · rfl
  · exact congrArg Host.Outcome.next (h.setPc s a)

theorem HiddenFrom.next_setReg (h : HiddenFrom g i) {r : Int} {v v' : Word xlen} (hw : writtenRegister i = some r)
    (hr : 0 ≤ r) (hv : v' = v) :
    (.next ((g s).setReg r.toNat v') : BlockResult xlen) = mapBlock g (.next (s.setReg r.toNat v)) := by
  rw [hv, h.setReg s r v hw hr, mapBlock]

/-- An instruction checks every register it reads. -/
theorem readRegisters_subset (i : Instr) : readRegisters i ⊆ registerFields i := by
  cases i <;> simp [readRegisters, registerFields]

/-- Behind the register checks a hidden change passes through. -/
theorem HiddenFrom.ownEffect (h : HiddenFrom g i) (hr : ∀ r ∈ registerFields i, s.hasRegister r) :
    ownEffect i (g s) = mapBlock g (ownEffect i s) := by
  have hread : ∀ r ∈ readRegisters i, (g s).reg r.toNat = s.reg r.toNat := fun r hri =>
    h.read s r hri (hr r (readRegisters_subset i hri))
  have hcell : (g s).cell = s.cell := by
    funext c
    rw [Block.cell, h.memory, Block.cell]
  cases i with
  | add a b d | sub a b d | mul a b d | and a b d | or a b d | xor a b d | shl a b d | shr a b d =>
    refine h.next_setReg rfl (hr d (by simp [registerFields])).1 ?_
    rw [hread a (by simp [readRegisters]), hread b (by simp [readRegisters])]
  | div a b d =>
    rw [Machine.ownEffect, Machine.ownEffect, hread a (by simp [readRegisters]), hread b (by simp [readRegisters])]
    split_ifs
    · exact congrArg Host.Outcome.next (h.fail s _)
    · exact h.next_setReg rfl (hr d (by simp [registerFields])).1 rfl
  | store r a =>
    rw [Machine.ownEffect, Machine.ownEffect]
    refine h.checkAddr fun c => ?_
    rw [mapBlock, hread r (by simp [readRegisters]), h.setCell]
  | load r a =>
    refine h.checkAddr fun c => h.next_setReg rfl (hr r (by simp [registerFields])).1 ?_
    rw [hcell]
  | loadImmediate r v => exact h.next_setReg rfl (hr r (by simp [registerFields])).1 rfl
  | push r =>
    rw [Machine.ownEffect, Machine.ownEffect, h.sp]
    split_ifs
    · exact congrArg Host.Outcome.next (h.fail s _)
    · refine h.stackCell fun c => ?_
      rw [mapBlock, hread r (by simp [readRegisters]), h.setCell, h.setSp]
  | pop r =>
    rw [Machine.ownEffect, Machine.ownEffect, h.sp, h.memorySize]
    split_ifs
    · exact congrArg Host.Outcome.next (h.fail s _)
    · refine h.stackCell fun c => ?_
      rw [h.setSp, hcell]
      exact h.next_setReg rfl (hr r (by simp [registerFields])).1 rfl
  | mov d a =>
    exact h.next_setReg rfl (hr d (by simp [registerFields])).1 (hread a (by simp [readRegisters]))
  | not a d =>
    refine h.next_setReg rfl (hr d (by simp [registerFields])).1 ?_
    rw [hread a (by simp [readRegisters])]
  | cmp a b | test a b =>
    refine h.next_setReg (r := 0) rfl le_rfl ?_
    rw [hread a (by simp [readRegisters]), hread b (by simp [readRegisters])]
  | jmp t => exact h.jumpIf true t
  | jz r t | jnz r t =>
    rw [Machine.ownEffect, Machine.ownEffect, hread r (by simp [readRegisters]), h.jumpIf]
  | je a b t | jne a b t =>
    rw [Machine.ownEffect, Machine.ownEffect, hread a (by simp [readRegisters]), hread b (by simp [readRegisters]),
      h.jumpIf]
  | halt => exact congrArg Host.Outcome.next (h.finish rfl s)

/-- An instruction carries a hidden change through to its outcome and does nothing else with it. -/
theorem HiddenFrom.exec {f : (n : Nat) → Block n → Block n} (h : HiddenFrom (f xlen) i) :
    exec i ⟨xlen, f xlen s⟩ = mapNext f (exec i ⟨xlen, s⟩) := by
  rw [exec_eq_checkedThen, exec_eq_checkedThen, mapNext_lift]
  refine congrArg lift ?_
  cases hf : Machine.firstBadRegister s (registerFields i) with
  | some r =>
    rw [checkedThen_of_bad hf, checkedThen_of_bad (h.firstBadRegister s _ ▸ hf), h.fail, mapBlock]
  | none =>
    rw [checkedThen_of_none hf, checkedThen_of_none (h.firstBadRegister s _ ▸ hf)]
    exact h.ownEffect fun r hr => hasRegister_of_firstBad_none hf hr

/-- A register that an instruction neither reads nor writes is out of its sight. -/
theorem hiddenFrom_setReg {n : Nat} (v : Word xlen) (hi : i ≠ .halt) (hread : (n : Int) ∉ readRegisters i)
    (hwrite : writtenRegister i ≠ some (n : Int)) : HiddenFrom (fun t : Block xlen => t.setReg n v) i where
  numRegisters _ := Block.setReg_numRegisters ..
  memorySize _ := rfl
  memory _ := rfl
  sp _ := rfl
  read t r hr hreg := by
    have hne : r.toNat ≠ n := by
      rintro rfl
      exact hread (by rwa [Int.toNat_of_nonneg hreg.1])
    exact Block.reg_setReg_ne t hne v
  fail _ _ := rfl
  setReg t r w hw hr := by
    have hne : n ≠ r.toNat := by
      rintro rfl
      exact hwrite (by rw [hw, Int.toNat_of_nonneg hr])
    simp only [Block.setReg, List.set_comm _ _ hne]
  setCell _ _ _ := rfl
  setSp _ _ := rfl
  setPc _ _ := rfl
  finish h := absurd h hi

/-- Settles O26: a register neither read nor written is out of the instruction's sight. -/
theorem onlyTheReadRegistersMatter : Obligations.OnlyTheReadRegistersMatter := by
  intro xlen i s n v hi hread hwrite
  exact HiddenFrom.exec (f := fun m t => t.setReg n (BitVec.ofInt m v)) (hiddenFrom_setReg _ hi hread hwrite)

/-- `icount` and the ceiling are out of every instruction's sight, HALT's snapshot included (R38, R191). -/
theorem hiddenFrom_count (c : Word xlen) (m : Nat) (i : Instr) :
    HiddenFrom (fun t : Block xlen => { t with icount := c, maxInstructionCount := m }) i := by
  constructor <;> intros <;> rfl

/-- Settles O27: `icount` and the ceiling are out of every instruction's sight. -/
theorem countIsHiddenFromInstructions : Obligations.CountIsHiddenFromInstructions := by
  intro xlen i s c m
  exact HiddenFrom.exec (f := fun n t => { t with icount := BitVec.ofInt n c, maxInstructionCount := m })
    (hiddenFrom_count _ m i)

end Sys2Proof.Machine
end

section
/-! PROOFS. The invariant (spec/10_state.md): it holds at reset, each update an instruction can make keeps it,
so every step keeps it, and under it a running machine always takes a step. -/

namespace Sys2Proof.Machine

variable {xlen : Nat} {s u : Block xlen} {i : Instr} {w : InstrWord xlen}

/-! ## Each update keeps the invariant of a running block

A snapshot is compared with its block only after a normal end, so on a running block an update has no snapshot
to keep up to date. -/

theorem Block.Inv.setReg (h : s.Inv) (hs : s.status = .running) (n : Nat) (v : Word xlen) : (s.setReg n v).Inv :=
  { h with
    inputs := by rw [Block.setReg_inputs, h.inputs]
    whenDone := fun hd => nomatch hs.symm.trans hd }

theorem Block.Inv.setCell (h : s.Inv) (hs : s.status = .running) {a : Nat} (ha : a < s.memorySize) (v : Word xlen) :
    (s.setCell a v).Inv :=
  { h with
    memory := Memory.wf_write h.memory a v
    cells := fun c hc => by
      obtain ⟨rfl, -⟩ | hc := Memory.mem_write hc
      · exact ha
      · exact h.cells c hc
    whenDone := fun hd => nomatch hs.symm.trans hd }

theorem Block.Inv.setSp (h : s.Inv) (hs : s.status = .running) {v : Word xlen} (hlow : -1 ≤ v.toInt)
    (hhigh : v.toInt ≤ (s.memorySize : Int) - 1) : (s.setSp v).Inv :=
  { h with
    stackPointer := ⟨hlow, hhigh⟩
    whenDone := fun hd => nomatch hs.symm.trans hd }

theorem Block.Inv.setPc (h : s.Inv) (hs : s.status = .running) {a : Int} (ha : inField xlen a = true) :
    (s.setPc a).Inv :=
  { h with
    pointer := by
      obtain ⟨-, hlow, hhigh⟩ := inField_iff.1 ha
      rw [Block.setPc_pc, toInt_ofInt_pc ha]
      exact ⟨hlow, by omega⟩
    whenDone := fun hd => nomatch hs.symm.trans hd }

theorem Block.Inv.fail (h : s.Inv) (hs : s.status = .running) (e : Error) : (s.fail e).Inv :=
  { h with
    whileRunning := nofun
    whenDone := nofun
    whenFailed := fun _ => ⟨Option.some_ne_none e, (h.whileRunning hs).2⟩ }

theorem Block.Inv.finish (h : s.Inv) (hs : s.status = .running) : s.finish.Inv :=
  { h with
    whileRunning := nofun
    whenDone := fun _ => ⟨(h.whileRunning hs).1, rfl⟩
    whenFailed := nofun }

/-- Below the ceiling, counting does not wrap. -/
theorem Block.Inv.toInt_icount_add_one (h : s.Inv) (hc : s.icount.toInt < s.maxInstructionCount) :
    (s.icount + 1).toInt = s.icount.toInt + 1 := by
  obtain ⟨hx, -, -, ⟨-, hmax⟩, -⟩ := Block.ranges h.inputs
  exact toInt_add_one hx (by omega)

/-- The bit by which `pc` is wider keeps it from wrapping (D13). -/
theorem toInt_pc_add_one (hx : 1 ≤ xlen) {p : Pc xlen} (hp : p.toInt ≤ 2 ^ (xlen - 1) - 1) :
    (p + 1).toInt = p.toInt + 1 := by
  have hpow := two_pow_pred hx
  have : (0 : Int) < 2 ^ (xlen - 1) := by positivity
  refine toInt_add_one (by omega) ?_
  rw [Nat.add_sub_cancel]
  omega

/-- A step onward from the largest index that a field or the program allows (R29). -/
theorem Block.Inv.advance (h : s.Inv) (hs : s.status = .running) (hc : s.icount.toInt < s.maxInstructionCount)
    (hp : s.pc.toInt ≤ 2 ^ (xlen - 1) - 1) : s.advance.Inv :=
  { h with
    count := by
      have := h.count
      rw [Block.advance_icount, h.toInt_icount_add_one hc, Block.advance_maxInstructionCount]
      omega
    pointer := by
      have := h.pointer
      obtain ⟨hx, -⟩ := Block.ranges h.inputs
      rw [Block.advance_pc, toInt_pc_add_one (by omega) hp]
      omega
    whenDone := fun hd => nomatch hs.symm.trans hd }

/-! ## Each effect keeps the invariant -/

/-- The target of a well-formed jump fits its field. -/
theorem inField_jumpTarget (h : WellFormed xlen i) {a : Int} (ha : jumpTarget i = some a) : inField xlen a = true := by
  cases i <;> simp_all [WellFormed, Instr.wf, jumpTarget]

theorem Effect.inv (heff : Effect s i u) (h : s.Inv) (hs : s.status = .running) (hi : WellFormed xlen i) : u.Inv := by
  obtain ⟨hx, -, ⟨-, hmem⟩, -⟩ := Block.ranges h.inputs
  cases heff with
  | raised _ e => exact h.fail hs e
  | wrote _ n v => exact h.setReg hs _ v
  | stored r a ha => exact h.setCell hs (by omega) _
  | pushed r ha =>
    have hsp : (s.sp - 1).toInt = s.sp.toInt - 1 := toInt_pred hx ha.1
    refine (h.setCell hs (by omega) _).setSp hs (by omega) ?_
    rw [hsp, Block.setCell_memorySize]
    omega
  | popped r hr ha =>
    have hsp : (s.sp + 1).toInt = s.sp.toInt + 1 := toInt_add_one hx (by omega)
    exact (h.setSp hs (v := s.sp + 1) (by omega) (by omega)).setReg hs _ _
  | jumped _ a ha => exact h.setPc hs (inField_jumpTarget hi ha)
  | stayed => exact h
  | halted => exact h.finish hs

/-- After the effect of a fetched instruction `pc` is an index of the program or a field. -/
theorem Effect.pc_le (heff : Effect s i u) (hw : Fetches s w) (hi : WellFormed xlen i) :
    u.pc.toInt ≤ 2 ^ (xlen - 1) - 1 := by
  obtain hpc | ⟨a, ha, hpc⟩ := heff.pc
  · have := hw.inside
    obtain ⟨-, -, -, -, hsize⟩ := Block.ranges hw.launched
    rw [hpc]
    omega
  · have hfit := inField_jumpTarget hi ha
    rw [hpc, toInt_ofInt_pc hfit]
    exact (inField_iff.1 hfit).2.2

/-! ## Every step keeps the invariant -/

/-- The update of a class keeps the invariant where counting and advancing would. -/
theorem Block.Inv.afterDispatch (h : u.Inv) (hc : u.icount.toInt < u.maxInstructionCount)
    (hp : u.pc.toInt ≤ 2 ^ (xlen - 1) - 1) (c : DispatchClass) : (afterDispatch c u).Inv := by
  by_cases hu : u.status = .running
  · cases c with
    | counted => exact afterDispatch_counted hu ▸ h.advance hu hc hp
    | jump => exact (afterDispatch_jump u).symm ▸ h
    | halt => exact (afterDispatch_halt u).symm ▸ h
  · exact (afterDispatch_of_ended hu c).symm ▸ h

theorem inv_of_dispatchWord (h : s.Inv) (hw : Fetches s w) (hstep : dispatchWord w s = .next ⟨xlen, u⟩) : u.Inv := by
  obtain ⟨hx, -, -, -, hsize⟩ := Block.ranges h.inputs
  obtain ⟨i, b, hd, heff, rfl⟩ | ⟨op, -, rfl | rfl⟩ := dispatchWord_effect hstep
  · have hi : WellFormed xlen i := wellFormed_of_decode (by omega) hd
    have hmax : b.maxInstructionCount = s.maxInstructionCount := (Block.inputs_eq_iff.1 heff.inputs).2.2.1
    refine (heff.inv h hw.running hi).afterDispatch ?_ (heff.pc_le hw hi) _
    rw [heff.icount, hmax]
    exact hw.counted
  · exact h.fail hw.running _
  · have := hw.inside
    exact h.advance hw.running hw.counted (by omega)

theorem inv_of_step (h : s.Inv) (hstep : step ⟨xlen, s⟩ = .next ⟨xlen, u⟩) : u.Inv := by
  obtain ⟨hs, -, v, hv, hcases⟩ := step_next hstep
  obtain rfl : u = v := State.mk_inj hv
  obtain ⟨-, rfl⟩ | ⟨-, -, rfl⟩ | ⟨-, -, rfl⟩ | ⟨w, hw, hword⟩ := hcases
  · exact h.finish hs
  · exact h.fail hs _
  · exact h.fail hs _
  · exact inv_of_dispatchWord h hw hword

/-- Settles O44: the loop test, the guard and the fetch end the run; a dispatched word makes an effect and then
the update of its class. Each keeps the invariant. -/
theorem everyStepKeepsTheInvariant : Obligations.EveryStepKeepsTheInvariant := by
  rintro ⟨xlen, s⟩ t h hstep
  obtain ⟨-, -, u, rfl, -⟩ := step_next hstep
  exact inv_of_step h hstep

/-! ## Reset -/

/-- Reset leaves `sp` at the last cell (R44). -/
theorem Block.resetWith_sp {l : Launch} (h : launchOk l = true) :
    (Block.resetWith l).sp.toInt = (l.memorySize : Int) - 1 := by
  obtain ⟨hx, -, ⟨hpos, hmax⟩, -⟩ := launchOk_iff.1 h
  have : (0 : Int) < 2 ^ (l.xlen - 1) := by positivity
  exact toInt_ofInt_of_range (by omega) (by omega) (by omega)

@[simp] theorem Block.resetWith_inputs (l : Launch) : (Block.resetWith l).inputs = l := by
  simp [Block.inputs, Block.resetWith, Block.numRegisters]

theorem Block.resetWith_inv {l : Launch} (h : launchOk l = true) : (Block.resetWith l).Inv := by
  obtain ⟨hx, -, ⟨hpos, -⟩, -⟩ := launchOk_iff.1 h
  have hpc : (Block.resetWith l).pc.toInt = 0 := BitVec.toInt_zero
  have hcount : (Block.resetWith l).icount.toInt = 0 := BitVec.toInt_zero
  have hsp := Block.resetWith_sp h
  have : (0 : Int) < 2 ^ (l.xlen - 1) := by positivity
  exact {
    inputs := by rw [Block.resetWith_inputs, h]
    memory := Block.resetWith_memory_wf l
    cells := nofun
    stackPointer := ⟨by omega, hsp.le⟩
    count := ⟨hcount.ge, by omega⟩
    pointer := ⟨by omega, by omega⟩
    whileRunning := fun _ => ⟨rfl, rfl⟩
    whenDone := nofun
    whenFailed := nofun }

/-- Settles O45: the reset state is that of one launch in range. -/
theorem invariantHoldsAtReset : Obligations.InvariantHoldsAtReset :=
  ⟨fun _ => Block.resetWith_inv, Block.resetWith_inv (l := Config.resetLaunch) (by decide)⟩

/-- Settles O52: the register list is zeros and the memory list is empty. -/
theorem resetLeavesTheStatedValues : Obligations.ResetLeavesTheStatedValues := by
  intro l h
  refine ⟨Block.resetWith l, rfl, List.length_replicate .., fun n => ?_, fun a => rfl, Block.resetWith_sp h,
    BitVec.toInt_zero, BitVec.toInt_zero, rfl, rfl, rfl, Block.resetWith_inputs l⟩
  rw [Block.reg, List.getD_eq_getElem?_getD]
  exact List.getElem?_getD_replicate_default_eq ..

/-! ## Progress -/

/-- An address check goes on, if only to the error of a bad address (R53). -/
theorem exists_checkAddr_eq_next (a : Int) (k : Nat → Block xlen) :
    ∃ v, checkAddr s a (fun c => .next (k c)) = .next v := by
  by_cases ha : s.hasCell a
  · exact ⟨_, checkAddr_of_hasCell ha _⟩
  · exact ⟨_, checkAddr_of_not ha _⟩

/-- Under the invariant the effect behind the register checks answers a next block: PUSH and POP find their
cell (R30), and no other instruction can stop. -/
theorem Block.Inv.ownEffect_next (h : s.Inv) (i : Instr) : ∃ v, ownEffect i s = .next v := by
  have hsp := h.stackPointer
  cases i with
  | store r a | load r a =>
    rw [ownEffect]
    exact exists_checkAddr_eq_next a _
  | div a b c =>
    rw [ownEffect]
    split_ifs <;> exact ⟨_, rfl⟩
  | push r =>
    rw [ownEffect]
    split_ifs with hfull
    · exact ⟨_, rfl⟩
    · exact ⟨_, stackCell_of_hasCell ⟨by omega, by omega⟩ _⟩
  | pop r =>
    rw [ownEffect]
    split_ifs with hempty
    · exact ⟨_, rfl⟩
    · exact ⟨_, stackCell_of_hasCell ⟨by omega, by omega⟩ _⟩
  | add | sub | mul | and | or | xor | shl | shr | loadImmediate | mov | not | cmp | test | jmp | jz | jnz | je | jne
  | halt => exact ⟨_, rfl⟩

theorem Block.Inv.exec_next (h : s.Inv) (i : Instr) : ∃ v : Block xlen, exec i ⟨xlen, s⟩ = .next ⟨xlen, v⟩ := by
  rw [exec_eq_checkedThen]
  cases hf : firstBadRegister s (registerFields i) with
  | some q => exact ⟨_, congrArg lift (checkedThen_of_bad hf _)⟩
  | none =>
    obtain ⟨v, hv⟩ := h.ownEffect_next i
    exact ⟨v, by rw [checkedThen_of_none hf, hv, lift]⟩

theorem Block.Inv.dispatchWord_next (h : s.Inv) (w : InstrWord xlen) :
    ∃ v : Block xlen, dispatchWord w s = .next ⟨xlen, v⟩ := by
  unfold dispatchWord
  cases decode w with
  | instr i =>
    obtain ⟨v, hv⟩ := h.exec_next i
    exact ⟨_, congrArg (completeDispatch _) hv⟩
  | unknownOpcode op =>
    cases hp : s.unknownOpcodePolicy with
    | fault => exact ⟨_, congrArg lift (unknownOpcode_fault hp op)⟩
    | nop => exact ⟨_, congrArg lift (unknownOpcode_nop hp op)⟩

/-- A running machine with the invariant takes a step. -/
theorem Block.Inv.step_next (h : s.Inv) (hs : s.status = .running) :
    ∃ v : Block xlen, step ⟨xlen, s⟩ = .next ⟨xlen, v⟩ := by
  rw [step_running hs h.inputs]
  by_cases hp : s.pc.toInt < s.programSize
  · by_cases hc : s.icount.toInt ≥ s.maxInstructionCount
    · exact ⟨_, runningStep_limit hp hc⟩
    · by_cases h0 : s.pc.toInt < 0
      · exact ⟨_, runningStep_negative h0 hc⟩
      · rw [runningStep_dispatch hp hc h0]
        exact h.dispatchWord_next _
  · exact ⟨_, runningStep_past hp⟩

/-- A launched run keeps the invariant. -/
theorem inv_of_reachable {s : State} (h : Reachable s) : s.Inv := by
  induction h with
  | launched l hl => exact Block.resetWith_inv hl
  | stepped _ hstep ih => exact everyStepKeepsTheInvariant _ _ ih hstep

/-- Settles O46: the invariant holds along the run, and under it a running machine takes a step. -/
theorem reachableMachineIsNeverStuck : Obligations.ReachableMachineIsNeverStuck := by
  intro s h
  have hinv := inv_of_reachable h
  refine ⟨hinv, fun hs => ?_⟩
  obtain ⟨v, hv⟩ := hinv.step_next hs
  exact ⟨_, hv⟩

end Sys2Proof.Machine
end

section
/-! PROOFS. Steps and runs (spec/47_execution_engine.md): the steps that end or refuse a run, what a step counts,
and from that the runs that never end and those that end within the ceiling. -/

namespace Sys2Proof.Machine

variable {xlen : Nat} {s t u : Block xlen} {i : Instr} {w : InstrWord xlen}

/-! ## Steps that end, raise or refuse -/

/-- Settles O33: a negative `pc` is below the program's end, and then the fetch raises. -/
theorem negativePointerRaisesAtTheFetch : Obligations.NegativePointerRaisesAtTheFetch := by
  intro xlen s hs hl hp hc
  rw [step_running hs hl, runningStep_negative hp (by omega), Block.fail]

/-- Settles O34: such a word selects no instruction, and the policy decides. -/
theorem unknownOpcodeFollowsThePolicy : Obligations.UnknownOpcodeFollowsThePolicy := by
  intro xlen s w hw hout
  have hd : decode w = .unknownOpcode (fieldAt w 5) := decodeFields_eq_unknownOpcode_iff.2 ⟨rfl, hout⟩
  have hstep : step ⟨xlen, s⟩ = lift (unknownOpcode (fieldAt w 5) s) := by rw [hw.step_eq, dispatchWord, hd]
  refine ⟨fun hp => ?_, fun hp => ?_⟩
  · rw [hstep, unknownOpcode_fault hp, lift, Block.fail]
  · rw [hstep, unknownOpcode_nop hp, lift, Block.advance]

/-- Settles O35: the step's first branch is on `status`. -/
theorem noStepAfterTheEnd : Obligations.NoStepAfterTheEnd := by
  intro xlen s h
  rw [step, engineStep]
  cases hs : s.status with
  | running => exact absurd hs h
  | done => rfl
  | failed => rfl

/-- Settles O36: `launchOk` says all the ranges, and both `launch` and `step` branch on it. -/
theorem brokenLaunchIsRefused : Obligations.BrokenLaunchIsRefused := by
  refine ⟨fun l hbad => if_neg fun hl => ?_, fun xlen s hs hl => ?_⟩
  · obtain ⟨hx, ⟨hr, hr'⟩, ⟨hm, hm'⟩, ⟨hc, hc'⟩, hp⟩ := launchOk_iff.1 hl
    have hcast : ((2 ^ (l.xlen - 1) : Nat) : Int) = 2 ^ (l.xlen - 1) := by push_cast; rfl
    omega
  · rw [step, engineStep, hs]
    exact if_neg hl

/-! ## A fetched instruction that goes on -/

/-- A counted instruction that goes on is followed by the advance (R176). -/
theorem Fetches.step_of_counted (hw : Fetches s w) (hd : decode w = .instr i) (hc : dispatchClass i = .counted)
    (he : exec i ⟨xlen, s⟩ = .next ⟨xlen, u⟩) (hu : u.status = .running) :
    step ⟨xlen, s⟩ = .next ⟨xlen, u.advance⟩ := by
  rw [hw.step_eq_completeDispatch hd, he, completeDispatch, hc, afterDispatch_counted hu]

theorem Fetches.eq_advance (hw : Fetches s w) (hd : decode w = .instr i) (hc : dispatchClass i = .counted)
    (he : exec i ⟨xlen, s⟩ = .next ⟨xlen, u⟩) (hu : u.status = .running)
    (hstep : step ⟨xlen, s⟩ = .next ⟨xlen, t⟩) : t = u.advance :=
  next_inj (hstep.symm.trans (hw.step_of_counted hd hc he hu))

/-- A jump of the jump class is the whole step (R175). -/
theorem Fetches.step_of_jump (hw : Fetches s w) (hd : decode w = .instr i) (hc : dispatchClass i = .jump)
    (he : exec i ⟨xlen, s⟩ = .next ⟨xlen, u⟩) : step ⟨xlen, s⟩ = .next ⟨xlen, u⟩ := by
  rw [hw.step_eq_completeDispatch hd, he, completeDispatch, hc, afterDispatch_jump]

theorem Fetches.width (hw : Fetches s w) : 2 ≤ xlen := (Block.ranges hw.launched).1

theorem Fetches.toInt_advance_pc (hw : Fetches s w) : s.advance.pc.toInt = s.pc.toInt + 1 := by
  have := hw.inside
  obtain ⟨hx, -, -, -, hsize⟩ := Block.ranges hw.launched
  exact toInt_pc_add_one (by omega) (by omega)

theorem toInt_setPc_advance_pc {a : Int} (ha : inField xlen a = true) :
    (s.setPc a).advance.pc.toInt = a + 1 := by
  obtain ⟨hx, -, hhigh⟩ := inField_iff.1 ha
  have hpc : (s.setPc a).pc.toInt = a := toInt_ofInt_pc ha
  rw [Block.advance_pc, toInt_pc_add_one hx (by omega), hpc]

/-- Settles O37: the jump leaves `addr` or the old index in `pc`, and the advance adds one to it and to `icount`. -/
theorem takenJeJneLandsOnePastItsTarget : Obligations.TakenJeJneLandsOnePastItsTarget := by
  intro xlen s t w r q a hw hinv hr hq hstep
  have hcount := hinv.toInt_icount_add_one hw.counted
  have hx : 1 ≤ xlen := by have := hw.width; omega
  refine ⟨fun hd => ?je, fun hd => ?jne⟩
  case je =>
    have ha : inField xlen a = true := inField_jumpTarget (wellFormed_of_decode hx hd) rfl
    have hexec := exec_je_of_hasRegister hr hq a
    simp only [BitVec.toInt_inj] at hexec
    split_ifs at hexec ⊢ with heq
    · obtain rfl := hw.eq_advance hd rfl hexec hw.running hstep
      exact ⟨hcount, toInt_setPc_advance_pc ha⟩
    · obtain rfl := hw.eq_advance hd rfl hexec hw.running hstep
      exact ⟨hcount, hw.toInt_advance_pc⟩
  case jne =>
    have ha : inField xlen a = true := inField_jumpTarget (wellFormed_of_decode hx hd) rfl
    have hexec := exec_jne_of_hasRegister hr hq a
    simp only [BitVec.toInt_inj] at hexec
    split_ifs at hexec ⊢ with heq
    · obtain rfl := hw.eq_advance hd rfl hexec hw.running hstep
      exact ⟨hcount, hw.toInt_advance_pc⟩
    · obtain rfl := hw.eq_advance hd rfl hexec hw.running hstep
      exact ⟨hcount, toInt_setPc_advance_pc ha⟩

/-! ## Loops of one instruction (R158, R178) -/

/-- A machine that steps to itself stays as it is. -/
theorem run_of_step_self {s : State} (h : step s = .next s) (k : Nat) :
    Host.Core.run Sys2Proof.core k s = .next s := by
  induction k with
  | zero => rfl
  | succ k ih => rw [run_succ h, ih]

/-- A jump to its own index changes nothing. -/
theorem Block.setPc_self (s : Block xlen) : s.setPc s.pc.toInt = s := by
  rw [Block.setPc, BitVec.ofInt_toInt]

/-- Settles O38: each of these instructions leaves the block as it is, and so does its step. -/
theorem uncountedSelfLoopsNeverEnd : Obligations.UncountedSelfLoopsNeverEnd := by
  intro xlen s w r a hw hr hcase k
  refine run_of_step_self ?_ k
  obtain ⟨hd, hstay⟩ | ⟨hd, hstay⟩ | ⟨hd, rfl⟩ := hcase
  · refine hw.step_of_jump hd rfl ((exec_jz_of_hasRegister hr a).trans ?_)
    obtain hne | rfl := hstay
    · rw [if_neg (mt toInt_eq_zero.1 hne)]
    · rw [Block.setPc_self, ite_self]
  · refine hw.step_of_jump hd rfl ((exec_jnz_of_hasRegister hr a).trans ?_)
    obtain hzero | rfl := hstay
    · rw [if_pos (toInt_eq_zero.2 hzero)]
    · rw [Block.setPc_self, ite_self]
  · refine hw.step_of_jump hd rfl ((exec_jmp s _).trans ?_)
    rw [Block.setPc_self]

/-! ## What a step counts (R178) -/

/-- HALT ends the run: its effect is the normal end. -/
theorem Effect.ended_of_halt (heff : Effect s .halt u) : u.status ≠ .running := by
  cases heff with
  | raised | halted => nofun
  | wrote _ _ _ _ hw => exact nomatch hw
  | jumped _ _ hi | stayed _ _ hi => exact nomatch hi

/-- The update of a class counts a counted instruction that goes on, and nothing else. -/
theorem Effect.afterDispatch_cases (heff : Effect s i u) :
    (dispatchClass i = .counted ∧ afterDispatch (dispatchClass i) u = u.advance ∧ u.status = .running) ∨
    (dispatchClass i = .jump ∧ afterDispatch (dispatchClass i) u = u ∧ u.status = .running) ∨
    (afterDispatch (dispatchClass i) u = u ∧ u.status ≠ .running) := by
  by_cases hu : u.status = .running
  · cases hc : dispatchClass i with
    | counted => exact .inl ⟨rfl, afterDispatch_counted hu, hu⟩
    | jump => exact .inr (.inl ⟨rfl, afterDispatch_jump u, hu⟩)
    | halt =>
      obtain rfl := dispatchClass_eq_halt_iff.1 hc
      exact absurd hu heff.ended_of_halt
  · exact .inr (.inr ⟨afterDispatch_of_ended hu _, hu⟩)

/-- Settles O40: a step that ends the run keeps `icount`; one that goes on dispatched a word, which was counted
or a jump. -/
theorem onlyCompletedCountedInstructionsCount : Obligations.OnlyCompletedCountedInstructionsCount := by
  intro xlen s t hinv hstep
  obtain ⟨hs, -, v, hv, hcases⟩ := step_next hstep
  obtain rfl : t = v := State.mk_inj hv
  obtain ⟨-, rfl⟩ | ⟨-, -, rfl⟩ | ⟨-, -, rfl⟩ | ⟨w, hw, hword⟩ := hcases
  · exact .inr (.inr ⟨nofun, rfl⟩)
  · exact .inr (.inr ⟨nofun, rfl⟩)
  · exact .inr (.inr ⟨nofun, rfl⟩)
  have hcount := hinv.toInt_icount_add_one hw.counted
  obtain ⟨i, b, hd, heff, rfl⟩ | ⟨op, hd, rfl | rfl⟩ := dispatchWord_effect hword
  · obtain ⟨hc, hb, hrun⟩ | ⟨hc, hb, hrun⟩ | ⟨hb, hended⟩ := heff.afterDispatch_cases
    · rw [hb]
      refine .inl ⟨hrun, ?_, w, hw, fun j hj => ?_⟩
      · rw [Block.advance_icount, heff.icount, hcount]
      · rw [hd] at hj
        cases hj
        exact hc
    · rw [hb]
      exact .inr (.inl ⟨hrun, heff.icount, w, i, hw, hd, hc⟩)
    · rw [hb]
      exact .inr (.inr ⟨hended, heff.icount⟩)
  · exact .inr (.inr ⟨nofun, rfl⟩)
  · exact .inl ⟨hs, hcount, w, hw, fun j hj => nomatch hd.symm.trans hj⟩

/-- Every step that goes on without a word of the jump class takes one from what is left of the ceiling. -/
theorem exists_run_ended {s : Block xlen} (h : s.Inv) (hs : s.status = .running)
    (hprog : ∀ w ∈ s.program, ∀ i, decode w = .instr i → dispatchClass i ≠ .jump) :
    ∃ (k : Nat) (t : Block xlen), (k : Int) ≤ s.maxInstructionCount - s.icount.toInt + 1 ∧
      Host.Core.run Sys2Proof.core k (State.mk xlen s) = .next (State.mk xlen t) ∧ t.status ≠ .running := by
  obtain ⟨t, hstep⟩ := h.step_next hs
  obtain ⟨-, -, hmax, -, hprogram⟩ := Block.inputs_eq_iff.1 (step_inputs hstep)
  obtain ⟨hrun, hcount, w, hw, -⟩ | ⟨-, -, w, i, hw, hd, hjump⟩ | ⟨hended, -⟩ :=
    onlyCompletedCountedInstructionsCount xlen s t h hstep
  · have := hw.counted
    obtain ⟨k, v, hk, hv, hended⟩ := exists_run_ended (inv_of_step h hstep) hrun (hprogram ▸ hprog)
    exact ⟨k + 1, v, by push_cast; omega, (run_succ hstep k).trans hv, hended⟩
  · exact absurd hjump (hprog w (List.mem_of_getElem? hw.word) i hd)
  · have := h.count
    exact ⟨1, t, by push_cast; omega, run_succ hstep 0, hended⟩
termination_by (s.maxInstructionCount - s.icount.toInt).toNat
decreasing_by omega

/-- Settles O39: what is left of the ceiling bounds the run. -/
theorem programWithoutUncountedJumpsEnds : Obligations.ProgramWithoutUncountedJumpsEnds :=
  fun _ _ => exists_run_ended

/-! ## The word placed at the next fetch (log entry 4) -/

theorem placeWord_length (p : List (InstrWord xlen)) (k : Nat) (w : InstrWord xlen) :
    (placeWord p k w).length = max p.length (k + 1) := by
  fun_induction placeWord p k w <;> simp_all

theorem placeWord_getElem? (p : List (InstrWord xlen)) (k : Nat) (w : InstrWord xlen) :
    (placeWord p k w)[k]? = some w := by
  fun_induction placeWord p k w <;> simp_all

/-- The index that a machine ready to fetch holds is `pc`, or 0 for a negative one. -/
theorem Block.readyToFetch_pc (s : Block xlen) : s.readyToFetch.pc.toInt = max s.pc.toInt 0 := by
  unfold Block.readyToFetch
  dsimp only
  split_ifs with h
  · rw [max_eq_right h.le]
    exact BitVec.toInt_zero
  · exact (max_eq_left (not_lt.1 h)).symm

theorem Block.readyToFetch_icount (s : Block xlen) (h : 1 ≤ s.maxInstructionCount) :
    s.readyToFetch.icount.toInt < s.maxInstructionCount := by
  unfold Block.readyToFetch
  dsimp only
  split_ifs with hlimit
  · exact (BitVec.toInt_zero (w := xlen)).trans_lt (by exact_mod_cast h)
  · exact not_le.1 (mt Block.limitReached_iff.2 hlimit)

/-- A word placed inside the largest program is fetched next. -/
theorem Block.loadWord_fetches (hl : launchOk s.inputs = true) (hp : s.pc.toInt < Config.maxParameter xlen)
    (w : InstrWord xlen) : Fetches (s.loadWord w) w := by
  obtain ⟨hx, hregs, hmem, hmax, hsize⟩ := Block.ranges hl
  have hpc : (s.loadWord w).pc.toInt = max s.pc.toInt 0 := s.readyToFetch_pc
  rw [Config.maxParameter_cast] at hp
  refine ⟨rfl, launchOk_iff.2 ⟨hx, hregs, hmem, hmax, ?_⟩, s.readyToFetch_icount hmax.1, by omega,
    placeWord_getElem? ..⟩
  have hlen : (s.loadWord w).inputs.program.length = max s.programSize ((s.loadWord w).pc.toInt.toNat + 1) :=
    placeWord_length ..
  rw [hlen]
  show ((max _ _ : Nat) : Int) ≤ 2 ^ (xlen - 1) - 1
  omega

/-- Settles O55: the bits above the word's width are dropped, and the word is placed at the next fetch. -/
theorem loadedWordIsFetchedNext : Obligations.LoadedWordIsFetchedNext := by
  intro xlen s w hl hp
  have hword : BitVec.ofNat (6 * xlen) (w % 2 ^ (6 * xlen)) = BitVec.ofNat (6 * xlen) w :=
    BitVec.eq_of_toNat_eq (by simp)
  exact ⟨s.loadWord _, rfl, hword ▸ s.loadWord_fetches hl hp _⟩

end Sys2Proof.Machine
end

section
/-! PROOFS. Single instructions and results: DIV's edges and the shifts of the ALU (spec/40_arithmetic.md,
spec/43_move_logic_shift.md), CMP's order, the stack's faults, and a LOAD after a STORE. -/

namespace Sys2Proof.Machine

variable {xlen : Nat} {s : Block xlen}

/-! ## Registers and words -/

/-- Settles O49: writing an existing register is an update of the register list at its index. -/
theorem everyRegisterIsOrdinary : Obligations.EveryRegisterIsOrdinary := fun _ s _ v hn =>
  ⟨(Block.reg_setReg hn v _).trans (if_pos rfl), fun _ hm => Block.reg_setReg_ne s hm v⟩

/-- Settles O51: a wrapped integer is a word's signed value. -/
theorem wrapIsCongruentAndInRange : Obligations.WrapIsCongruentAndInRange := by
  intro xlen z _
  obtain ⟨hlow, hhigh⟩ := toInt_bounds (wrap z : Word xlen)
  exact ⟨hlow, by omega, toInt_wrap_emod z⟩

/-! ## DIV's results (R106) -/

/-- A quotient that fits is not wrapped. -/
theorem toInt_divResult {a b : Word xlen} (h : inField xlen (Int.tdiv a.toInt b.toInt) = true) :
    (divResult a b).toInt = Int.tdiv a.toInt b.toInt := toInt_ofInt_inField h

/-- Four bits hold the operands and quotients of the table. -/
theorem inField_of_four (hx : 4 ≤ xlen) {z : Int} (hlow : -8 ≤ z) (hhigh : z ≤ 7) : inField xlen z = true := by
  have : (2 : Int) ^ 3 ≤ 2 ^ (xlen - 1) := pow_le_pow_right₀ (by decide) (by omega)
  exact inField_iff.2 ⟨by omega, by omega, by omega⟩

/-- A row of the table: the operands and the quotient are within four bits. -/
theorem toInt_divResult_of_four (hx : 4 ≤ xlen) {a b : Int} (ha : -8 ≤ a ∧ a ≤ 7) (hb : -8 ≤ b ∧ b ≤ 7)
    (hq : -8 ≤ Int.tdiv a b ∧ Int.tdiv a b ≤ 7) :
    (divResult (BitVec.ofInt xlen a) (BitVec.ofInt xlen b)).toInt = Int.tdiv a b := by
  have ha' := toInt_ofInt_inField (inField_of_four hx ha.1 ha.2)
  have hb' := toInt_ofInt_inField (inField_of_four hx hb.1 hb.2)
  rw [toInt_divResult (by rw [ha', hb']; exact inField_of_four hx hq.1 hq.2), ha', hb']

theorem divResult_one (hx : 2 ≤ xlen) (a : Word xlen) : divResult a 1 = a := by
  rw [divResult, toInt_one hx, Int.tdiv_one, wrap, BitVec.ofInt_toInt]

theorem divResult_neg_one (hx : 1 ≤ xlen) (a : Word xlen) : divResult a (BitVec.ofInt xlen (-1)) = wrap (-a.toInt) := by
  have hpos : (0 : Int) < 2 ^ (xlen - 1) := by positivity
  have hneg : (BitVec.ofInt xlen (-1)).toInt = -1 := toInt_ofInt_of_range hx (by omega) (by omega)
  rw [divResult, hneg, Int.tdiv_neg, Int.tdiv_one]

/-- 2^(XLEN-1), one more than the largest word, wraps to the least one (D8). -/
theorem toInt_wrap_two_pow (hx : 1 ≤ xlen) : (wrap (2 ^ (xlen - 1)) : Word xlen).toInt = -2 ^ (xlen - 1) := by
  rw [wrap, BitVec.toInt_ofInt]
  exact Int.bmod_eq_neg (by positivity) (by push_cast; exact two_pow_pred hx)

/-- Settles O5: but for the last row the exact quotient fits. -/
theorem divEdgeResults : Obligations.DivEdgeResults := by
  intro xlen hx
  refine ⟨toInt_divResult_of_four hx (by decide) (by decide) (by decide),
    toInt_divResult_of_four hx (by decide) (by decide) (by decide),
    toInt_divResult_of_four hx (by decide) (by decide) (by decide),
    toInt_divResult_of_four hx (by decide) (by decide) (by decide), fun b _ => ?zero,
    toInt_divResult_of_four hx (by decide) (by decide) (by decide),
    toInt_divResult_of_four hx (by decide) (by decide) (by decide),
    divResult_one (by omega), fun a ha => ?negated, ?wrapped⟩
  case zero =>
    have hzero : Int.tdiv (0 : Word xlen).toInt b.toInt = 0 := by
      rw [toInt_eq_zero.2 rfl, Int.zero_tdiv]
    rw [toInt_divResult (by rw [hzero]; exact inField_zero (by omega)), hzero]
  case negated =>
    obtain ⟨hlow, hhigh⟩ := toInt_bounds a
    rw [divResult_neg_one (by omega)]
    exact toInt_ofInt_of_range (by omega) (by omega) (by omega)
  case wrapped =>
    have hpos : (0 : Int) < 2 ^ (xlen - 1) := by positivity
    rw [divResult_neg_one (by omega), toInt_ofInt_of_range (by omega) le_rfl (by omega), neg_neg,
      toInt_wrap_two_pow (by omega)]

/-! ## The shifts (R134, R135) -/

/-- Settles O14: `shlResult` is the wrapped product by definition. -/
theorem shlMultipliesByPowerOfTwo : Obligations.ShlMultipliesByPowerOfTwo := by
  intro xlen s a b c
  refine ⟨fun ha hb hc => ?_, reportsBadRegister_of_exec_eq (exec_shl s a b c), rfl⟩
  rw [exec_eq_of_three_registers (exec_shl s a b c) ha hb hc, shlResult, wrap, shiftCount, Nat.cast_pow, Nat.cast_ofNat]

/-- Settles O15: the word written reads as the quotient of the division that rounds down. -/
theorem shrDividesRoundingDown : Obligations.ShrDividesRoundingDown := by
  intro xlen s a b c
  refine ⟨fun ha hb hc => ⟨shrResult (s.reg a.toNat) (s.reg b.toNat), ?_, ?_,
    exec_eq_of_three_registers (exec_shr s a b c) ha hb hc⟩, reportsBadRegister_of_exec_eq (exec_shr s a b c), rfl⟩
  · rw [toInt_shrResult, shiftCount]
    exact Int.ediv_mul_le _ (by positivity)
  · rw [toInt_shrResult, shiftCount]
    exact Int.lt_ediv_add_one_mul_self _ (by positivity)

/-! ## CMP (R145) -/

theorem toInt_cmpResult (hx : 2 ≤ xlen) (a b : Word xlen) : (cmpResult a b).toInt = Int.sign (a.toInt - b.toInt) := by
  unfold cmpResult
  split_ifs with hlt heq
  · rw [toInt_neg_one (by omega), Int.sign_eq_neg_one_of_neg (by omega)]
  · rw [heq, sub_self, Int.sign_zero, toInt_eq_zero.2 rfl]
  · rw [toInt_one hx, Int.sign_eq_one_of_pos (by omega)]

/-- Settles O17: the word written reads as the sign of the difference. -/
theorem cmpWritesSignedOrderToRegisterZero : Obligations.CmpWritesSignedOrderToRegisterZero := fun _ s a b =>
  ⟨fun hx ha hb => ⟨cmpResult _ _, toInt_cmpResult hx _ _,
      exec_eq_of_no_bad_register (exec_cmp s a b) (firstBadRegister_two ha hb)⟩,
    reportsBadRegister_of_exec_eq (exec_cmp s a b), rfl⟩

/-! ## Memory and the stack -/

/-- Settles O11: past the register check and the stack check the access names no cell. -/
theorem stackAccessOutsideMemoryFaults : Obligations.StackAccessOutsideMemoryFaults := by
  intro xlen s r hr
  refine ⟨fun hsp => ?push, fun hsp hsize => ?pop⟩
  case push =>
    rw [exec_eq_of_no_bad_register (exec_push s r) (firstBadRegister_one hr), if_neg (by omega),
      stackCell_of_not (by omega), lift]
  case pop =>
    rw [exec_eq_of_no_bad_register (exec_pop s r) (firstBadRegister_one hr), if_neg (by omega),
      stackCell_of_not (by omega), lift]

/-- Settles O47: the LOAD copies a cell of the memory that the STORE wrote. -/
theorem loadAfterStore : Obligations.LoadAfterStore := by
  intro xlen s r a q b hwf hr ha hq hb
  refine ⟨_, _, exec_eq_of_register_of_cell (exec_store s r a) hr ha,
    exec_eq_of_register_of_cell (exec_load _ q b) hq hb, ?_⟩
  have hlt : q.toNat < (s.setCell a.toNat (s.reg r.toNat)).numRegisters := (Int.toNat_lt hq.1).2 hq.2
  have hsame : b.toNat = a.toNat ↔ b = a := by omega
  simp only [Block.reg_setReg hlt, Block.cell_setCell hwf, hsame, if_true]

/-! ## The host (R243) -/

/-- Settles O53: the invariant ties the status to the error and the snapshot that the host reads. -/
theorem hostSeesOnlyTheResult : Obligations.HostSeesOnlyTheResult := by
  intro xlen s h
  refine ⟨fun hs => ?running, fun hs => ?done, fun hs => ?failed⟩
  case running => simp [hostView, hs]
  case done =>
    obtain ⟨-, hsnap⟩ := h.whenDone hs
    simp [hostView, hs, hsnap]
  case failed =>
    obtain ⟨herr, -⟩ := h.whenFailed hs
    obtain ⟨e, he⟩ := Option.ne_none_iff_exists'.1 herr
    exact ⟨e, he, by simp [hostView, hs, he]⟩

/-- Settles O54: both functions are the columns of the table of R200. -/
theorem errorCodesAndInformation : Obligations.ErrorCodesAndInformation := fun z => by
  simp [errorCode, errorInfo]

end Sys2Proof.Machine
end
